-- ==== Sys2Proof/Word.lean ====
section
/-! DEFINITION. The word types of the SRM control block: the command word and its packed fields, and the two
integer register widths (spec/30_encoding.md R81, R84; spec/10_state.md R22, R25). -/

namespace Sys2Proof

/-- The command word presented on `cmd` (R80, R81). -/
abbrev Word := BitVec 32

/-- The raw position transfer word, `RAW_W` = 24 bits (R6, R111). -/
abbrev RawWord := BitVec 24

/-- A 12-bit sensor count or dial count (R22, R84). -/
abbrev Count := BitVec 12

/-- The decimation counter, `CNT_W` = 16 bits (R6, R25). -/
abbrev TickCount := BitVec 16

end Sys2Proof
end

