-- ==== Sys2Proof/Syntax.lean ====
section
/-! DEFINITION. The enumerated types of the block (spec/10_state.md R32) and its seven operations, one constructor
per row of spec/opcode_table.json (spec/30_encoding.md R82, R84). Real-valued operands are on ports, not here (R85). -/

namespace Sys2Proof

/-- *Dir* (R32): the run direction. -/
inductive Dir where
  | cw | ccw
deriving DecidableEq, Repr

/-- *Mode* (R32): which reference CONTROL selects; a constant of the configuration. -/
inductive Mode where
  | speed | current
deriving DecidableEq, Repr

/-- *Phase* (R32): the four windings. -/
inductive Phase where
  | a | b | c | d
deriving DecidableEq, Repr

/-- *Cmd* (R32): the four driver commands. -/
inductive Cmd where
  | demagnetize | magnetize | freewheel | chargeBootstrapCapacitor
deriving DecidableEq, Repr

/-- *FaultCode* (R32, R261): seven members; the 3-bit code 7 names none of them (R92). -/
inductive FaultCode where
  | none
  | overvoltageOvercurrentHW
  | overcurrentHW
  | phaseAOvercurrent
  | phaseBOvercurrent
  | phaseCOvercurrent
  | phaseDOvercurrent
deriving DecidableEq, Repr

/-- *FsmState* (R32): the three states of the CommutationSelector; the 2-bit code 3 is unused (R90, R161). -/
inductive FsmState where
  | init | control | fault
deriving DecidableEq, Repr

/-- A switch bit (R90): `prev`, `cs.sw`, `hc.out`. -/
inductive Switch where
  | off | on
deriving DecidableEq, Repr

/-- `SPEED_FB` (R6, R250): which speed register the assembled block wires to `in_speed`. -/
inductive SpeedFb where
  | rpm | radS
deriving DecidableEq, Repr

/-- The seven operations (R5, R82). The operands' types are their field widths (R84), so every value is legal. -/
inductive Instr where
  /-- `RST`, full reinitialisation (R241). -/
  | rst
  /-- `PSI`, PositionSensor init (R110). -/
  | psi
  /-- `PSR raw`, PositionSensor read (R112). -/
  | psr (raw : RawWord)
  /-- `HCE prev`, one comparator evaluation (R142). -/
  | hce (prev : Switch)
  /-- `PIU`, one PI controller update (R212). -/
  | piu
  /-- `CSS dir, dial`, one invocation of the CommutationSelector (R160). -/
  | css (dir : Dir) (dial : Count)
  /-- `FLT code`, fault entry (R245, R246). -/
  | flt (code : FaultCode)
deriving DecidableEq, Repr

/-- The mnemonic of spec/opcode_table.json. -/
def Instr.mnemonic : Instr → String
  | .rst => "RST"
  | .psi => "PSI"
  | .psr _ => "PSR"
  | .hce _ => "HCE"
  | .piu => "PIU"
  | .css _ _ => "CSS"
  | .flt _ => "FLT"

end Sys2Proof
end

