-- ==== Sys2Proof/Config.lean ====
section
/-! DEFINITION. What the block does not fix: the number record `NUM` (spec/00_scope.md R9), the configuration `CFG`
(R6; spec/10_state.md R40 to R47), `ConfigOK` (R45) and what makes `wrap` the floored modulo (R10), and the one
uninterpreted constant that stands for a NUM and a well-formed CFG of a built block. Everything the block computes is a function of these two records, so that it can be
read at the exact reals, evaluated at the rationals, or left uninterpreted as the machine does. -/

namespace Sys2Proof

/-- R9: the record `NUM` over a carrier `α`. Its `ZERO` is the carrier's `0` (log 2). The record assumes nothing of the
functions; what R10 says of `floorMod` is `NumOps.FlooredModulo`. -/
structure NumOps (α : Type) where
  /-- `x + y` -/
  add : α → α → α
  /-- `x − y` -/
  sub : α → α → α
  /-- `x × y` -/
  mul : α → α → α
  /-- `x ÷ y` -/
  div : α → α → α
  /-- `|x|` -/
  abs : α → α
  /-- `x <= y` (and `y >= x`) -/
  le : α → α → Bool
  /-- `x < y` (and `y > x`) -/
  lt : α → α → Bool
  /-- `x = y` -/
  eq : α → α → Bool
  /-- `wrap(x, c)`, the floored modulo of R10 -/
  floorMod : α → α → α
  /-- `sin x` -/
  sin : α → α
  /-- `cos x` -/
  cos : α → α
  /-- `num(n)` -/
  ofNat : Nat → α
  /-- `2π` -/
  twoPi : α
  /-- `60` -/
  sixty : α

/-- R10: `x = q×m + r` for an integer `q`, in NUM's own operations; a negative `q = −n` is written `x = r − n×m` (log 16). -/
def NumOps.CongruentMod {α : Type} (N : NumOps α) (m x r : α) : Prop :=
  ∃ n : Nat, N.eq x (N.add (N.mul (N.ofNat n) m) r) = true ∨ N.eq x (N.sub r (N.mul (N.ofNat n) m)) = true

/-- R10 (decision D15): `wrap(x, c)`, for `c > 0`, is the floored modulo: with `r` its value, `0 <= r < c` and `x = q×c + r`
for an integer `q`, for negative `x` too. -/
def NumOps.FlooredModulo {α : Type} [Zero α] (N : NumOps α) : Prop :=
  ∀ x c : α, N.lt 0 c = true →
    N.le 0 (N.floorMod x c) = true ∧ N.lt (N.floorMod x c) c = true ∧ N.CongruentMod c x (N.floorMod x c)

/-- R44: one entry of the commutation table. The field `on` is read by no rule (R181). -/
structure TableEntry (α : Type) where
  on : α
  off : α
  phase : Phase
  boot : Phase
deriving DecidableEq, Repr

/-- R6, R40 to R44: the configuration constants. -/
structure Cfg (α : Type) where
  /-- `ALIGN_OFFSET` (R40) -/
  alignOffset : Nat
  /-- `DT` (R40) -/
  dt : α
  /-- `KF` (R40) -/
  kf : α
  /-- `HYST_BAND` (R41) -/
  hystBand : α
  /-- `KP` (R42) -/
  kp : α
  /-- `KI` (R42) -/
  ki : α
  /-- `KC` (R42) -/
  kc : α
  /-- `OUT_MIN` (R42) -/
  outMin : α
  /-- `OUT_MAX` (R42) -/
  outMax : α
  /-- `MODE` (R43) -/
  mode : Mode
  /-- `SPEED_RATE` (R43) -/
  speedRate : Nat
  /-- `MIN_SPEED` (R43) -/
  minSpeed : α
  /-- `MAX_SPEED` (R43) -/
  maxSpeed : α
  /-- `MAX_CURRENT_REF` (R43) -/
  maxCurrentRef : α
  /-- `CTRL_THETA` (R43) -/
  ctrlTheta : α
  /-- `THETA_OFFSET[CW]` (R43) -/
  thetaOffsetCw : α
  /-- `THETA_OFFSET[CCW]` (R43) -/
  thetaOffsetCcw : α
  /-- `TABLE[CW]` (R44) -/
  tableCw : Vector (TableEntry α) 4
  /-- `TABLE[CCW]` (R44) -/
  tableCcw : Vector (TableEntry α) 4
  /-- `SPEED_FB` (R250) -/
  speedFb : SpeedFb
deriving DecidableEq, Repr

variable {α : Type}

/-- `POS_MASK` (R40). -/
def posMask : Nat := 4095

/-- `POS_RES` (R40). -/
def posRes : Nat := 4095

/-- `DIAL_MAX` (R43). -/
def dialMax : Nat := 4095

/-- `THETA_OFFSET[d]` (R43). -/
def Cfg.thetaOffset (c : Cfg α) : Dir → α
  | .cw => c.thetaOffsetCw
  | .ccw => c.thetaOffsetCcw

/-- `TABLE[d]` (R44). -/
def Cfg.table (c : Cfg α) : Dir → Vector (TableEntry α) 4
  | .cw => c.tableCw
  | .ccw => c.tableCcw

/-- `ConfigOK` (R45). Its last clause, that every `phase` and `boot` is one of A, B, C, D, holds by the type. -/
abbrev Cfg.ok [Zero α] (N : NumOps α) (c : Cfg α) : Prop :=
  N.lt 0 c.dt = true ∧ N.lt 0 c.ctrlTheta = true ∧ N.le c.outMin c.outMax = true ∧
    1 ≤ c.speedRate ∧ c.speedRate < 2 ^ 16 ∧ c.alignOffset ≤ 4095

/-- The names of `NUM` values in State. NUM is open (R9), so what number a name stands for, and every operation on names,
is the uninterpreted record of `Config.setup`, of which R10's law of `wrap` alone is known; the rationals serve as names because they are plain data without end, and no
definition of the machine uses their own arithmetic (log 1). The name of `ZERO` is `0` (log 2). -/
abbrev Value := Rat

/-- Exact arithmetic on the rationals, used only to show that a well-formed `Setup` exists and by the tests. Rational
numbers have no sine: `sin` and `cos` here are placeholders. -/
def NumOps.rational : NumOps Rat where
  add x y := x + y
  sub x y := x - y
  mul x y := x * y
  div x y := x / y
  abs x := if x < 0 then -x else x
  le x y := decide (x ≤ y)
  lt x y := decide (x < y)
  eq x y := decide (x = y)
  floorMod x c := x - c * ((x / c).floor : Int)
  sin x := x
  cos _ := 1
  ofNat n := (n : Rat)
  twoPi := 4095
  sixty := 60

/-- The exact rationals' `wrap` is the floored modulo. -/
theorem NumOps.rational_flooredModulo : NumOps.rational.FlooredModulo := by
  intro x c hc
  simp only [NumOps.rational, NumOps.CongruentMod, decide_eq_true_eq] at hc ⊢
  have lower := (le_div_iff₀ hc).mp (Rat.floor_le (x / c))
  have upper := (div_lt_iff₀ hc).mp (Rat.lt_floor_add_one (x / c))
  push_cast at upper
  refine ⟨by linarith, by linarith, ((x / c).floor).natAbs, ?_⟩
  rcases Int.natAbs_eq ((x / c).floor) with h | h
  · have hq : ((x / c).floor : Rat) = ((x / c).floor.natAbs : Rat) := (congrArg Int.cast h).trans (Int.cast_natCast _)
    exact .inl (by rw [← hq]; ring)
  · have hq : ((x / c).floor : Rat) = -((x / c).floor.natAbs : Rat) :=
      (congrArg Int.cast h).trans (by rw [Int.cast_neg, Int.cast_natCast])
    exact .inr (by rw [hq]; ring)

/-- `CFG0`, the reference configuration of spec/95_test_vectors.md (angles in degrees). Only the tests, the witnesses and
the existence of a `Setup` use it. -/
def Cfg.cfg0 : Cfg Rat where
  alignOffset := 0
  dt := 1 / 20000
  kf := 1 / 4
  hystBand := 1 / 2
  kp := 1 / 2
  ki := 1 / 4
  kc := 1 / 4
  outMin := 0
  outMax := 10
  mode := .current
  speedRate := 1
  minSpeed := 0
  maxSpeed := 3000
  maxCurrentRef := 10
  ctrlTheta := 60
  thetaOffsetCw := 0
  thetaOffsetCcw := 0
  tableCw := #v[⟨0, 17, .a, .b⟩, ⟨17, 34, .b, .c⟩, ⟨34, 45, .c, .d⟩, ⟨45, 60, .d, .a⟩]
  tableCcw := #v[⟨60, 45, .d, .c⟩, ⟨45, 34, .c, .b⟩, ⟨34, 17, .b, .a⟩, ⟨17, 0, .a, .d⟩]
  speedFb := .rpm

/-- A NUM and a configuration a block may be built with: `wrap` is the floored modulo (R10; log 16), `ConfigOK` holds (R45,
93 U6) and `SPEED_FB` is `RPM`, the value R250 fixes (log 3, 4). The fields' defaults only show that there is one; no proof can see which one `Config.setup` is. -/
structure Setup where
  num : NumOps Value := NumOps.rational
  cfg : Cfg Value := Cfg.cfg0
  floored : num.FlooredModulo := by exact NumOps.rational_flooredModulo
  ok : cfg.ok num := by decide +kernel
  fb : cfg.speedFb = .rpm := by decide +kernel
deriving Inhabited

/-- The block's own NUM and CFG: uninterpreted. -/
opaque Config.setup : Setup

/-- The block's `NUM`. -/
def Config.num : NumOps Value := Config.setup.num

/-- The block's `CFG`: it has the same value in every state of every run (R46). -/
def Config.cfg : Cfg Value := Config.setup.cfg

theorem Config.num_flooredModulo : Config.num.FlooredModulo := Config.setup.floored

theorem Config.cfg_ok : Config.cfg.ok Config.num := Config.setup.ok

theorem Config.cfg_speedFb : Config.cfg.speedFb = .rpm := Config.setup.fb

end Sys2Proof
end

