-- ==== Sys2Proof/WellFormed.lean ====
section
/-! DEFINITION. Checks on data that a type does not make by itself: which command words are legal
(spec/30_encoding.md R91, R92) and the two optional premises about a commutation table (spec/10_state.md R45).
`ConfigOK` stands in Config.lean, where the configuration needs it. -/

namespace Sys2Proof

/-- R91, R92: the words a host may present: `op` is 1 to 7, and an `FLT` word's code is not 7. -/
def legalWord (w : Word) : Bool :=
  let op := w.toNat / 2 ^ 28
  decide (1 ≤ op) && decide (op ≤ 7) && !(decide (op = 7) && decide (w.toNat % 8 = 7))

/-- R84, R92: an instruction's operands are legal. Every `raw`, `dial`, `dir` and `prev` is, and `FaultCode` has no member
for the reserved code 7, so the operand types leave nothing to refuse; the checks are those of `legalWord`, on words. -/
def Instr.wf : Instr → Bool
  | .rst => true
  | .psi => true
  | .psr _ => true
  | .hce _ => true
  | .piu => true
  | .css _ _ => true
  | .flt _ => true

variable {α : Type}

/-- `TableOrdered(d)` (R45): thresholds non-decreasing for CW, non-increasing for CCW. The block does not check it. -/
def Cfg.tableOrdered (N : NumOps α) (c : Cfg α) : Dir → Bool
  | .cw => N.le c.tableCw[0].off c.tableCw[1].off && N.le c.tableCw[1].off c.tableCw[2].off
      && N.le c.tableCw[2].off c.tableCw[3].off
  | .ccw => N.le c.tableCcw[1].off c.tableCcw[0].off && N.le c.tableCcw[2].off c.tableCcw[1].off
      && N.le c.tableCcw[3].off c.tableCcw[2].off

/-- `TableCovers(d)` (R45): the last threshold lies at or beyond the end of the control period. The block does not check it. -/
def Cfg.tableCovers [Zero α] (N : NumOps α) (c : Cfg α) : Dir → Bool
  | .cw => N.le c.ctrlTheta c.tableCw[3].off
  | .ccw => N.le c.tableCcw[3].off 0

end Sys2Proof
end

