-- ==== Sys2Proof/Decode.lean ====
section
/-! DEFINITION. The numeric codes of the enumerations (spec/30_encoding.md R90), the decoder (R97), total on all 2^32
words, the opcode table's match and mask (R83), and the encoder (R82, R95). -/

namespace Sys2Proof

/-! ## Codes (R90) -/

/-- CW = 0, CCW = 1. -/
def Dir.code : Dir → BitVec 1
  | .cw => 0
  | .ccw => 1

/-- The *Dir* with a given code. -/
def Dir.ofCode (c : BitVec 1) : Dir :=
  if c = 1 then .ccw else .cw

/-- SPEED = 0, CURRENT = 1. -/
def Mode.code : Mode → BitVec 1
  | .speed => 0
  | .current => 1

/-- A = 0 to D = 3. -/
def Phase.code : Phase → BitVec 2
  | .a => 0
  | .b => 1
  | .c => 2
  | .d => 3

/-- Demagnetize = 0, Magnetize = 1, Freewheel = 2, ChargeBootstrapCapacitor = 3. -/
def Cmd.code : Cmd → BitVec 2
  | .demagnetize => 0
  | .magnetize => 1
  | .freewheel => 2
  | .chargeBootstrapCapacitor => 3

/-- INIT = 0, CONTROL = 1, FAULT = 2; 3 is unused. -/
def FsmState.code : FsmState → BitVec 2
  | .init => 0
  | .control => 1
  | .fault => 2

/-- None = 0 to PhaseDOvercurrent = 6; 7 is reserved. -/
def FaultCode.code : FaultCode → BitVec 3
  | .none => 0
  | .overvoltageOvercurrentHW => 1
  | .overcurrentHW => 2
  | .phaseAOvercurrent => 3
  | .phaseBOvercurrent => 4
  | .phaseCOvercurrent => 5
  | .phaseDOvercurrent => 6

/-- The *FaultCode* with a given code; 7 names none (R92). -/
def FaultCode.ofCode (c : BitVec 3) : Option FaultCode :=
  match c.toNat with
  | 0 => some .none
  | 1 => some .overvoltageOvercurrentHW
  | 2 => some .overcurrentHW
  | 3 => some .phaseAOvercurrent
  | 4 => some .phaseBOvercurrent
  | 5 => some .phaseCOvercurrent
  | 6 => some .phaseDOvercurrent
  | _ => Option.none

/-- off = 0, on = 1. -/
def Switch.code : Switch → BitVec 1
  | .off => 0
  | .on => 1

/-- The switch bit with a given code. -/
def Switch.ofCode (c : BitVec 1) : Switch :=
  if c = 1 then .on else .off

/-! ## Decoding (R97) -/

/-- Why a word is refused (R91, R92). -/
inductive DecodeError where
  /-- `op` is 0 or 8 to 15 (R91). -/
  | reservedOp (op : BitVec 4)
  /-- `FLT` with code 7 (R92). -/
  | reservedFaultCode
deriving DecidableEq, Repr

/-- R81: bits 31:28. -/
def opField (w : Word) : BitVec 4 := w.extractLsb' 28 4

/-- R82: `raw` = bits 23:0. -/
def rawField (w : Word) : RawWord := w.extractLsb' 0 24

/-- R82: `prev` = bit 0. -/
def prevField (w : Word) : BitVec 1 := w.extractLsb' 0 1

/-- R82: `dir` = bit 12. -/
def dirField (w : Word) : BitVec 1 := w.extractLsb' 12 1

/-- R82: `dial` = bits 11:0. -/
def dialField (w : Word) : Count := w.extractLsb' 0 12

/-- R82: `code` = bits 2:0. -/
def codeField (w : Word) : BitVec 3 := w.extractLsb' 0 3

/-- R97: the decoding algorithm. Every word is one of the seven operations with definite operands, or refused by name. -/
def decode (w : Word) : Except DecodeError Instr :=
  match (opField w).toNat with
  | 1 => .ok .rst
  | 2 => .ok .psi
  | 3 => .ok (.psr (rawField w))
  | 4 => .ok (.hce (Switch.ofCode (prevField w)))
  | 5 => .ok .piu
  | 6 => .ok (.css (Dir.ofCode (dirField w)) (dialField w))
  | 7 =>
    match FaultCode.ofCode (codeField w) with
    | some code => .ok (.flt code)
    | Option.none => .error .reservedFaultCode
  | _ => .error (.reservedOp (opField w))

/-- One row of spec/opcode_table.json. -/
structure OpcodeRow where
  mnemonic : String
  opMatch : Word
  opMask : Word
deriving DecidableEq, Repr

/-- R83: for every operation the match is `op << 28` and the mask `0xF0000000`. -/
def opcodeTable : List OpcodeRow :=
  [⟨"RST", 0x10000000, 0xF0000000⟩, ⟨"PSI", 0x20000000, 0xF0000000⟩, ⟨"PSR", 0x30000000, 0xF0000000⟩,
   ⟨"HCE", 0x40000000, 0xF0000000⟩, ⟨"PIU", 0x50000000, 0xF0000000⟩, ⟨"CSS", 0x60000000, 0xF0000000⟩,
   ⟨"FLT", 0x70000000, 0xF0000000⟩]

/-! ## Encoding (R82, R95): ignored bits are written as 0 -/

/-- The command word of an operation. -/
def encode : Instr → Word
  | .rst => 1#4 ++ 0#28
  | .psi => 2#4 ++ 0#28
  | .psr raw => 3#4 ++ (0#4 ++ raw)
  | .hce prev => 4#4 ++ (0#27 ++ prev.code)
  | .piu => 5#4 ++ 0#28
  | .css dir dial => 6#4 ++ (0#15 ++ (dir.code ++ dial))
  | .flt code => 7#4 ++ (0#25 ++ code.code)

/-- R82: the bits of a word that its operation reads, `op` among them; the others are ignored. -/
def usedBits : Instr → Word
  | .rst => 0xF0000000
  | .psi => 0xF0000000
  | .psr _ => 0xF0FFFFFF
  | .hce _ => 0xF0000001
  | .piu => 0xF0000000
  | .css _ _ => 0xF0001FFF
  | .flt _ => 0xF0000007

/-! ## The host's table words -/

/-- The command word whose bits are the low `nbits` bits of `w`; the table numbers bits as R8 does. -/
def wordOfTable (nbits w : Nat) : Word :=
  BitVec.ofNat 32 (w % 2 ^ nbits)

/-- What the decoder reads from an opcode-table word. -/
def decodeTableWord (nbits w : Nat) : Option Instr :=
  match decode (wordOfTable nbits w) with
  | .ok i => some i
  | .error _ => Option.none

end Sys2Proof
end

