-- ==== Sys2Proof/Machine/State.lean ====
section
/-! DEFINITION. The state of the block: its 23 registers (spec/10_state.md R20 to R25), the wires the host drives (R33),
what the host presents next, and the driver events of the latest operation (R36); the reset state (R50, R290, R291); and
the reasons a step can stop. The registers are written over a carrier `α` of NUM, so that the same operations can be read
at the exact reals; the machine's own state is over `Value`. -/

namespace Sys2Proof.Machine

variable {α : Type}

/-- R22: the registers of `ps`. -/
structure PsRegs (α : Type) where
  rawCount : Count
  compCount : Count
  theta : α
  sinPrev : α
  cosPrev : α
  wFilt : α
  rpm : α
deriving DecidableEq, Repr

/-- R23: the registers of `hc`, all three result registers. -/
structure HcRegs (α : Type) where
  upper : α
  lower : α
  out : Switch
deriving DecidableEq, Repr

/-- R24: the registers of `pi`. -/
structure PiRegs (α : Type) where
  integ : α
  out : α
deriving DecidableEq, Repr

/-- R25: the registers of `cs`. -/
structure CsRegs (α : Type) where
  state : FsmState
  cnt : TickCount
  iRef : α
  sw : Switch
  fault : FaultCode
  speedRef : α
  thetaCtl : α
  thetaC : α
  selValid : Bool
  active : Phase
  boot : Phase
deriving DecidableEq, Repr

/-- R20: the block's 23 registers, grouped by the unit that owns them. -/
structure Regs (α : Type) where
  ps : PsRegs α
  hc : HcRegs α
  pi : PiRegs α
  cs : CsRegs α
deriving DecidableEq, Repr

/-- R33: the values an operation samples on its operand ports. -/
structure Ports (α : Type) where
  inRef : α
  inAct : α
  inBeta : α
  inMeas : α
  inIA : α
  inIB : α
  inIC : α
  inID : α
  inTheta : α
  inSpeed : α
deriving DecidableEq, Repr

/-- What drives `in_theta` or `in_speed`: a level of the host's, or the PositionSensor's output as in the assembled block
(R33, R250). -/
inductive Feed (α : Type) where
  | level (x : α)
  | sensor
deriving DecidableEq, Repr

/-- R33: the command port and the operand ports, as the host drives them. -/
structure Wires (α : Type) where
  cmdValid : Bool
  cmd : Word
  inRef : α
  inAct : α
  inBeta : α
  inMeas : α
  inIA : α
  inIB : α
  inIC : α
  inID : α
  inTheta : Feed α
  inSpeed : Feed α
deriving DecidableEq, Repr

/-- R36: one driver event `(p, c)`. -/
structure Event where
  phase : Phase
  cmd : Cmd
deriving DecidableEq, Repr

/-- R66: an operation is one indivisible step from sampled ports and registers to new registers and an event list (R36). -/
abbrev Operation (α : Type) := Ports α → Regs α → Regs α × List Event

/-- The machine's state. `wires` is what the next step samples; `host` is what the host puts on the wires after this step,
oldest first; `events` is the event list of the latest operation (log 5, 6, 8). -/
structure State where
  regs : Regs Value
  wires : Wires Value
  host : List (Wires Value)
  events : List Event
deriving DecidableEq, Repr

/-! ## Reset (R50, R290, R291) -/

/-- R50, R110: the `ps` registers at reset. -/
def PsRegs.reset [Zero α] : PsRegs α where
  rawCount := 0
  compCount := 0
  theta := 0
  sinPrev := 0
  cosPrev := 0
  wFilt := 0
  rpm := 0

/-- R50: the `hc` registers at reset. -/
def HcRegs.reset [Zero α] : HcRegs α where
  upper := 0
  lower := 0
  out := .off

/-- R50: the `pi` registers at reset. -/
def PiRegs.reset [Zero α] : PiRegs α where
  integ := 0
  out := 0

/-- R50: the `cs` registers at reset. -/
def CsRegs.reset [Zero α] : CsRegs α where
  state := .init
  cnt := 0
  iRef := 0
  sw := .off
  fault := .none
  speedRef := 0
  thetaCtl := 0
  thetaC := 0
  selValid := false
  active := .a
  boot := .a

/-- R50: every register at its reset value. -/
def Regs.reset [Zero α] : Regs α where
  ps := PsRegs.reset
  hc := HcRegs.reset
  pi := PiRegs.reset
  cs := CsRegs.reset

/-- Wires on which nothing is presented: DESIGN CHOICE of all levels 0 (R291 leaves them unspecified; log 7). -/
def Wires.idle [Zero α] : Wires α where
  cmdValid := false
  cmd := 0
  inRef := 0
  inAct := 0
  inBeta := 0
  inMeas := 0
  inIA := 0
  inIB := 0
  inIC := 0
  inID := 0
  inTheta := .level 0
  inSpeed := .level 0

/-- R290, R291: right after power-on reset. The block waits for the first command word; nothing is presented. -/
def State.reset : State where
  regs := Regs.reset
  wires := Wires.idle
  host := []
  events := []

/-! ## Why a step stops -/

/-- R260: the block raises no exception, so there is no fault: nobody raises one. -/
inductive Fault : Type
deriving DecidableEq, Repr

/-- Why a step is refused. -/
inductive Refusal where
  /-- Raised by a dispatch arm whose instruction has no meaning yet (safe): none is left. -/
  | notModelled (mnemonic : String)
  /-- Raised by `step` on a word whose `op` is 0 or 8 to 15: R91 gives it no step (safe). -/
  | reservedOp (op : BitVec 4)
  /-- Raised by `step` on an `FLT` word with code 7: R92 refuses it (safe). -/
  | reservedFaultCode
deriving DecidableEq, Repr

end Sys2Proof.Machine
end

