-- ==== Sys2Proof/Machine/Operands.lean ====
section
/-! DEFINITION. Operand forms (spec/30_encoding.md R84, R85): the halves of the raw position word (R111), the dial as a
ratio (R173, R174), the active phase's current port (R186), the sampling of the ports (R63), and the views of the state on
the status and driver ports (R34, R35). -/

namespace Sys2Proof.Machine

variable {α : Type}

/-- R111: `lower = raw[11:0]`. -/
def rawLower (raw : RawWord) : Count := raw.extractLsb' 0 12

/-- R111: `upper = raw[23:12]`. -/
def rawUpper (raw : RawWord) : Count := raw.extractLsb' 12 12

/-- `num(n)` of a 12-bit count (R10, R84). -/
def numOfCount (N : NumOps α) (n : Count) : α := N.ofNat n.toNat

/-- R173, R174: `num(dial) ÷ num(4095)`. -/
def dialRatio (N : NumOps α) (dial : Count) : α := N.div (numOfCount N dial) (N.ofNat dialMax)

/-- R33, R61: `in_i[p]`. -/
def Ports.current (p : Ports α) : Phase → α
  | .a => p.inIA
  | .b => p.inIB
  | .c => p.inIC
  | .d => p.inID

/-- R33, R250: the value `in_theta` carries: the host's level, or `ps.theta` when wired to the sensor. -/
def thetaPort (r : Regs α) : Feed α → α
  | .level x => x
  | .sensor => r.ps.theta

/-- R250: the PositionSensor's speed output that `SPEED_FB` selects. -/
def speedOutput (c : Cfg α) (r : Regs α) : α :=
  match c.speedFb with
  | .rpm => r.ps.rpm
  | .radS => r.ps.wFilt

/-- R33, R250: the value `in_speed` carries. -/
def speedPort (c : Cfg α) (r : Regs α) : Feed α → α
  | .level x => x
  | .sensor => speedOutput c r

/-- R63: the operand ports sampled once, when the operation is accepted; sampling has no side effect. -/
def samplePorts (c : Cfg α) (w : Wires α) (r : Regs α) : Ports α where
  inRef := w.inRef
  inAct := w.inAct
  inBeta := w.inBeta
  inMeas := w.inMeas
  inIA := w.inIA
  inIB := w.inIB
  inIC := w.inIC
  inID := w.inID
  inTheta := thetaPort r w.inTheta
  inSpeed := speedPort c r w.inSpeed

/-- R34: the status port of `cs.state`, as its code (R90). -/
def statusState (r : Regs α) : BitVec 2 := r.cs.state.code

/-- R34: the status port of `cs.fault`, as its code (R90). -/
def statusFault (r : Regs α) : BitVec 3 := r.cs.fault.code

/-- R34: the status port of `cs.active`, as its code (R90). -/
def statusActive (r : Regs α) : BitVec 2 := r.cs.active.code

/-- R34: the status port of `cs.boot`, as its code (R90). -/
def statusBoot (r : Regs α) : BitVec 2 := r.cs.boot.code

/-- R34: the status port of `cs.sw`, as its code (R90). -/
def statusSw (r : Regs α) : BitVec 1 := r.cs.sw.code

/-- R34: the status port of `hc.out`, as its code (R90). -/
def statusOut (r : Regs α) : BitVec 1 := r.hc.out.code

/-- R34: the status port of `cs.selValid`. -/
def statusSelValid (r : Regs α) : BitVec 1 := BitVec.ofBool r.cs.selValid

/-- R35: `drv_valid[p]` while an event is delivered: one strobe is one call of the phase's function. -/
def drvValid (e : Event) (p : Phase) : Bool := decide (e.phase = p)

/-- R35: `drv_cmd[p]` while an event is delivered to `p`: the *Cmd* code. -/
def drvCmd (e : Event) : BitVec 2 := e.cmd.code

end Sys2Proof.Machine
end

