-- ==== Sys2Proof/Machine/Flags.lean ====
section
/-! DEFINITION. The flags (spec/10_state.md R31): the switch decision that `cs.sw` and `hc.out` hold, and the test that
`cs.selValid` reports, which is the direction's comparison with one threshold. -/

namespace Sys2Proof.Machine

variable {α : Type}

/-- R141, R143: force off at or above the upper limit, tested first; force on at or below the lower limit; else hold. -/
def switchDecision (N : NumOps α) (upper lower act : α) (prev : Switch) : Switch :=
  if N.le upper act then .off
  else if N.le act lower then .on
  else prev

/-- R181: `Match(dir, t, thr)`, inclusive in both directions. -/
def thresholdMatch (N : NumOps α) (dir : Dir) (t thr : α) : Bool :=
  match dir with
  | .cw => N.le t thr
  | .ccw => N.le thr t

/-- R187: the command the switch decision sends to the active phase. -/
def driveCmd : Switch → Cmd
  | .on => .magnetize
  | .off => .freewheel

end Sys2Proof.Machine
end

