-- ==== Sys2Proof/Machine/Ops.lean ====
section
/-! DEFINITION. The shared operations: `clamp` (spec/00_scope.md R10), the reinitialisation and the fault entry
(spec/44_system.md R241, R245; spec/60_exceptions.md R267), and what surrounds an operation in the machine: sampling, the
event list, and the host's next move (spec/20_memory.md R63, R66; spec/10_state.md R36). -/

namespace Sys2Proof.Machine

variable {α : Type}

/-- R10: `clamp(x, lo, hi)`, the upper test first. -/
def clamp (N : NumOps α) (x lo hi : α) : α :=
  if N.lt hi x then hi
  else if N.lt x lo then lo
  else x

/-- Demagnetize to A, B, C, D in this order (R183, R245). -/
def demagnetizeAll : List Event :=
  [⟨.a, .demagnetize⟩, ⟨.b, .demagnetize⟩, ⟨.c, .demagnetize⟩, ⟨.d, .demagnetize⟩]

/-- R185: Demagnetize to every phase but the active one, in the order A, B, C, D. -/
def demagnetizeOthers (active : Phase) : List Event :=
  demagnetizeAll.filter fun e => decide (e.phase ≠ active)

/-- R245, R267: taking a fault. The four events come first; the first code is latched; `cs.state` becomes FAULT; nothing
is saved and nothing else changes. -/
def faultEntry (code : FaultCode) (r : Regs α) : Regs α × List Event :=
  ({ r with cs := { r.cs with
      fault := if r.cs.fault = .none then code else r.cs.fault
      state := .fault } },
   demagnetizeAll)

/-- R241, R269: the only return from FAULT, which restores nothing: every register takes its reset value, no event. -/
def reinitialise [Zero α] : Regs α × List Event := (Regs.reset, [])

/-- R66: the machine performs one operation: the ports are sampled, the registers written together, the events delivered. -/
def State.perform (s : State) (op : Operation Value) : State :=
  let result := op (samplePorts Config.cfg s.wires s.regs) s.regs
  { s with regs := result.1, events := result.2 }

/-- The host's next move (log 6): the next wires it presents, or, when it presents nothing more, `cmd_valid` = 0 with the
other levels as they were. -/
def State.advanceHost (s : State) : State :=
  match s.host with
  | [] => { s with wires := { s.wires with cmdValid := false } }
  | w :: rest => { s with wires := w, host := rest }

/-- R80: the word the block accepts, if one is presented. -/
def State.fetch (s : State) : Option Word :=
  if s.wires.cmdValid then some s.wires.cmd else none

/-- What the host does after an operation that ended: its next move. -/
def afterExec : Host.Outcome State Fault Refusal → Host.Outcome State Fault Refusal
  | .next t => .next t.advanceHost
  | .fault r => .fault r
  | .refused r => .refused r

/-- R91, R92: the refusal of a reserved word, by name. -/
def refusalOf : DecodeError → Refusal
  | .reservedOp op => .reservedOp op
  | .reservedFaultCode => .reservedFaultCode

/-- The word presented on the command port, so that the next step accepts it. -/
def State.presentWord (s : State) (w : Word) : State :=
  { s with wires := { s.wires with cmdValid := true, cmd := w } }

/-- R80: with `cmd_valid` = 0 the block does nothing: no register changes and no event is sent. -/
def State.idle (s : State) : State := { s with events := [] }

end Sys2Proof.Machine
end

