-- ==== Sys2Proof/Machine/Hysteresis.lean ====
section
/-! DEFINITION. The HysteresisCurrentController: the comparator function and the operation HCE
(spec/41_hysteresis.md R140 to R146). -/

namespace Sys2Proof.Machine

variable {α : Type}

/-- R141: the comparator `HC(ref, act, beta, prev)`; what it returns are the three `hc` registers. It keeps no memory:
the previous switch state is an operand (R140). -/
def comparator (N : NumOps α) (ref act beta : α) (prev : Switch) : HcRegs α :=
  let upper := N.add ref beta
  let lower := N.sub ref beta
  { upper := upper
    lower := lower
    out := switchDecision N upper lower act prev }

/-- R142: one evaluation on the host's operands, which writes the three `hc` registers and nothing else. -/
def hceOp (N : NumOps α) (prev : Switch) : Operation α := fun p r =>
  ({ r with hc := comparator N p.inRef p.inAct p.inBeta prev }, [])

/-- `HCE prev` (R142). -/
def execHce (prev : Switch) (s : State) : Host.Outcome State Fault Refusal :=
  .next (s.perform (hceOp Config.num prev))

end Sys2Proof.Machine
end

