-- ==== Sys2Proof/Machine/VelocityPI.lean ====
section
/-! DEFINITION. The VelocityPIController: the update function and the operation PIU (spec/43_velocity_pi.md R210 to R222). -/

namespace Sys2Proof.Machine

variable {α : Type}

/-- R213: the error, reference first. -/
def piError (N : NumOps α) (ref meas : α) : α := N.sub ref meas

/-- R214: the proposed integrator `I + (KI × e)`, clamped to the output limits. -/
def piClampedInteg (N : NumOps α) (c : Cfg α) (e integ : α) : α :=
  clamp N (N.add integ (N.mul c.ki e)) c.outMin c.outMax

/-- R215: the unclamped sum `(KP × e) + Ic`. -/
def piSum (N : NumOps α) (c : Cfg α) (e ic : α) : α :=
  N.add (N.mul c.kp e) ic

/-- R216: the stored integrator: moved back by `KC` times the excess when the sum was clamped, else `Ic`. -/
def piStoredInteg (N : NumOps α) (c : Cfg α) (ic u out : α) : α :=
  if N.lt c.outMax u || N.lt u c.outMin then
    clamp N (N.sub ic (N.mul c.kc (N.sub u out))) c.outMin c.outMax
  else ic

/-- R211: the update function `PI(ref, meas, I)`; what it returns are the two `pi` registers. -/
def piUpdate (N : NumOps α) (c : Cfg α) (ref meas integ : α) : PiRegs α :=
  let e := piError N ref meas
  let ic := piClampedInteg N c e integ
  let u := piSum N c e ic
  let out := clamp N u c.outMin c.outMax
  { integ := piStoredInteg N c ic u out
    out := out }

/-- R212: one update on the host's operands, which writes `pi.integ` and `pi.out` and nothing else. -/
def piuOp (N : NumOps α) (c : Cfg α) : Operation α := fun p r =>
  ({ r with pi := piUpdate N c p.inRef p.inMeas r.pi.integ }, [])

/-- `PIU` (R212). -/
def execPiu (s : State) : Host.Outcome State Fault Refusal :=
  .next (s.perform (piuOp Config.num Config.cfg))

end Sys2Proof.Machine
end

