-- ==== Sys2Proof/Machine/Commutation.lean ====
section
/-! DEFINITION. The CommutationSelector operation CSS (spec/42_commutation.md R160 to R194): the INIT, CONTROL and FAULT
arms, and CONTROL's steps (b) to (e). -/

namespace Sys2Proof.Machine

variable {α : Type}

/-! ## Step (c): the current reference -/

/-- R173: `MIN_SPEED + ((num(dial) ÷ num(4095)) × (MAX_SPEED − MIN_SPEED))`. -/
def speedReference (N : NumOps α) (c : Cfg α) (dial : Count) : α :=
  N.add c.minSpeed (N.mul (dialRatio N dial) (N.sub c.maxSpeed c.minSpeed))

/-- R174: `(num(dial) ÷ num(4095)) × MAX_CURRENT_REF`. -/
def currentReference (N : NumOps α) (c : Cfg α) (dial : Count) : α :=
  N.mul (dialRatio N dial) c.maxCurrentRef

/-- R176: this CONTROL invocation runs the PI controller: `cs.cnt + 1 >= SPEED_RATE`, the sum formed without wrap (R18). -/
def tickDue (c : Cfg α) (cnt : TickCount) : Bool :=
  decide (c.speedRate ≤ cnt.toNat + 1)

/-- R176, R177, R178: step (c) in speed mode. On a tick the PI output becomes the reference; between ticks it is kept. -/
def speedStep (N : NumOps α) (c : Cfg α) (dial : Count) (p : Ports α) (r : Regs α) : Regs α :=
  let sRef := speedReference N c dial
  if tickDue c r.cs.cnt then
    let pi := piUpdate N c sRef p.inSpeed r.pi.integ
    { r with pi := pi, cs := { r.cs with speedRef := sRef, cnt := 0, iRef := pi.out } }
  else
    { r with cs := { r.cs with speedRef := sRef, cnt := BitVec.ofNat 16 (r.cs.cnt.toNat + 1) } }

/-- R174: step (c) in current mode writes `cs.iRef` alone. -/
def currentStep (N : NumOps α) (c : Cfg α) (dial : Count) (r : Regs α) : Regs α :=
  { r with cs := { r.cs with iRef := currentReference N c dial } }

/-- R172: step (c), by the constant `MODE`. -/
def referenceStep (N : NumOps α) (c : Cfg α) (dial : Count) (p : Ports α) (r : Regs α) : Regs α :=
  match c.mode with
  | .speed => speedStep N c dial p r
  | .current => currentStep N c dial r

/-! ## Steps (b) and (d): the angle and the table walk -/

/-- R171: `wrap(in_theta, CTRL_THETA)`. -/
def wrappedTheta (N : NumOps α) (c : Cfg α) (theta : α) : α :=
  N.floorMod theta c.ctrlTheta

/-- R180: `wrap(tCtl + THETA_OFFSET[dir], CTRL_THETA)`. -/
def offsetTheta (N : NumOps α) (c : Cfg α) (dir : Dir) (tCtl : α) : α :=
  N.floorMod (N.add tCtl (c.thetaOffset dir)) c.ctrlTheta

/-- R181, R182: the first entry, in table order, whose threshold `off` is not exceeded; none when no entry matches (R183). -/
def tableWalk (N : NumOps α) (c : Cfg α) (dir : Dir) (tC : α) : Option (TableEntry α) :=
  (c.table dir).toList.find? fun e => thresholdMatch N dir tC e.off

/-! ## Step (e): driving the phases -/

/-- R183: no entry matched: all four phases demagnetized, `cs.selValid` cleared, nothing else of step (e) written. -/
def driveNone (r : Regs α) : Regs α × List Event :=
  ({ r with cs := { r.cs with selValid := false } }, demagnetizeAll)

/-- R185 to R189: an entry matched: the comparator decides on the active phase's current, threading `cs.sw`; the other
three are demagnetized, the active one is magnetized or freewheels, and the entry's boot phase is charged last. -/
def driveEntry (N : NumOps α) (c : Cfg α) (e : TableEntry α) (p : Ports α) (r : Regs α) : Regs α × List Event :=
  let hc := comparator N r.cs.iRef (p.current e.phase) c.hystBand r.cs.sw
  ({ r with
      hc := hc
      cs := { r.cs with sw := hc.out, selValid := true, active := e.phase, boot := e.boot } },
   demagnetizeOthers e.phase ++ [⟨e.phase, driveCmd hc.out⟩, ⟨e.boot, .chargeBootstrapCapacitor⟩])

/-- Step (e) by the walk's outcome. -/
def driveStep (N : NumOps α) (c : Cfg α) (found : Option (TableEntry α)) (p : Ports α) (r : Regs α) :
    Regs α × List Event :=
  match found with
  | some e => driveEntry N c e p r
  | none => driveNone r

/-! ## The three arms -/

/-- R162: the INIT arm: every register of `cs`, `pi` and `hc` zeroed, then CONTROL; `ps` untouched; no event. -/
def cssInit [Zero α] (r : Regs α) : Regs α × List Event :=
  ({ r with hc := HcRegs.reset, pi := PiRegs.reset, cs := { (CsRegs.reset : CsRegs α) with state := .control } }, [])

/-- R164: the CONTROL arm. -/
def cssControl (N : NumOps α) (c : Cfg α) (dir : Dir) (dial : Count) (p : Ports α) (r : Regs α) :
    Regs α × List Event :=
  let tCtl := wrappedTheta N c p.inTheta
  let tC := offsetTheta N c dir tCtl
  let r := referenceStep N c dial p r
  let r := { r with cs := { r.cs with thetaCtl := tCtl, thetaC := tC } }
  driveStep N c (tableWalk N c dir tC) p r

/-- R161: one invocation does exactly one of the three arms, by `cs.state` before it; the FAULT arm does nothing (R163). -/
def cssOp [Zero α] (N : NumOps α) (c : Cfg α) (dir : Dir) (dial : Count) : Operation α := fun p r =>
  match r.cs.state with
  | .init => cssInit r
  | .control => cssControl N c dir dial p r
  | .fault => (r, [])

/-- `CSS dir, dial` (R160). -/
def execCss (dir : Dir) (dial : Count) (s : State) : Host.Outcome State Fault Refusal :=
  .next (s.perform (cssOp Config.num Config.cfg dir dial))

end Sys2Proof.Machine
end

