-- ==== Sys2Proof/Machine/PositionSensor.lean ====
section
/-! DEFINITION. The PositionSensor operations PSI and PSR (spec/40_position_sensor.md R110 to R125). Every formula keeps
the operation tree its rule writes (spec/00_scope.md R9). -/

namespace Sys2Proof.Machine

variable {α : Type}

/-- R110: the seven `ps` registers become 0 and nothing else changes. -/
def psiOp [Zero α] : Operation α := fun _ r =>
  ({ r with ps := PsRegs.reset }, [])

/-- R114: `(lower + ALIGN_OFFSET) & POS_MASK`, the sum formed without wrap. -/
def alignedCount (c : Cfg α) (lower : Count) : Count :=
  BitVec.ofNat 12 ((lower.toNat + c.alignOffset) &&& posMask)

/-- R113: `ps.rawCount` and `ps.compCount` after a read: new when the halves agree, else retained. -/
def readCounts (c : Cfg α) (raw : RawWord) (ps : PsRegs α) : Count × Count :=
  if rawLower raw = rawUpper raw then (rawLower raw, alignedCount c (rawLower raw))
  else (ps.rawCount, ps.compCount)

/-- R115: `(num(cc) × 2π) ÷ num(POS_RES)`. -/
def angleOf (N : NumOps α) (cc : Count) : α :=
  N.div (N.mul (numOfCount N cc) N.twoPi) (N.ofNat posRes)

/-- R117: `((c × (s − sinPrev)) − (s × (c − cosPrev))) ÷ DT`, with `sn` = s and `cn` = c. -/
def rawVelocity (N : NumOps α) (c : Cfg α) (sn cn sinPrev cosPrev : α) : α :=
  N.div (N.sub (N.mul cn (N.sub sn sinPrev)) (N.mul sn (N.sub cn cosPrev))) c.dt

/-- R118: `wFilt + (KF × (wRaw − wFilt))`. -/
def lowPass (N : NumOps α) (c : Cfg α) (wFilt wRaw : α) : α :=
  N.add wFilt (N.mul c.kf (N.sub wRaw wFilt))

/-- R119: `|wf| × (60 ÷ 2π)`. -/
def rpmOf (N : NumOps α) (wf : α) : α :=
  N.mul (N.abs wf) (N.div N.sixty N.twoPi)

/-- R112: the new `ps` registers. Sine and cosine are each evaluated once (R116) and always stored (R120). -/
def readSensor (N : NumOps α) (c : Cfg α) (raw : RawWord) (ps : PsRegs α) : PsRegs α :=
  let counts := readCounts c raw ps
  let th := angleOf N counts.2
  let sn := N.sin th
  let cn := N.cos th
  let wf := lowPass N c ps.wFilt (rawVelocity N c sn cn ps.sinPrev ps.cosPrev)
  { rawCount := counts.1
    compCount := counts.2
    theta := th
    sinPrev := sn
    cosPrev := cn
    wFilt := wf
    rpm := rpmOf N wf }

/-- R112: `PSR raw` writes the seven `ps` registers and nothing else, whatever `cs.state` is; no event. -/
def psrOp (N : NumOps α) (c : Cfg α) (raw : RawWord) : Operation α := fun _ r =>
  ({ r with ps := readSensor N c raw r.ps }, [])

/-- `PSI` (R110). -/
def execPsi (s : State) : Host.Outcome State Fault Refusal :=
  .next (s.perform psiOp)

/-- `PSR raw` (R112); it raises nothing (R125). -/
def execPsr (raw : RawWord) (s : State) : Host.Outcome State Fault Refusal :=
  .next (s.perform (psrOp Config.num Config.cfg raw))

end Sys2Proof.Machine
end

