-- ==== Sys2Proof/Machine/System.lean ====
section
/-! DEFINITION. The system operations RST and FLT (spec/44_system.md R240 to R247). -/

namespace Sys2Proof.Machine

variable {α : Type}

/-- R241: full reinitialisation, from any state. -/
def rstOp [Zero α] : Operation α := fun _ _ => reinitialise

/-- R245, R246, R247: `FLT None` does nothing; any other code is the fault entry, in any `cs.state`. -/
def fltOp (code : FaultCode) : Operation α := fun _ r =>
  if code = .none then (r, []) else faultEntry code r

/-- `RST` (R241). -/
def execRst (s : State) : Host.Outcome State Fault Refusal :=
  .next (s.perform rstOp)

/-- `FLT code` (R245, R246). -/
def execFlt (code : FaultCode) (s : State) : Host.Outcome State Fault Refusal :=
  .next (s.perform (fltOp code))

end Sys2Proof.Machine
end

