-- ==== Sys2Proof/Machine/Dispatch.lean ====
section
/-! DEFINITION. One arm per operation (spec/30_encoding.md R83). -/

namespace Sys2Proof.Machine

def exec (i : Instr) (s : State) : Host.Outcome State Fault Refusal :=
  match i with
  | .rst => Sys2Proof.Machine.execRst s
  | .psi => Sys2Proof.Machine.execPsi s
  | .psr raw => Sys2Proof.Machine.execPsr raw s
  | .hce prev => Sys2Proof.Machine.execHce prev s
  | .piu => Sys2Proof.Machine.execPiu s
  | .css dir dial => Sys2Proof.Machine.execCss dir dial s
  | .flt code => Sys2Proof.Machine.execFlt code s

end Sys2Proof.Machine
end

