-- ==== Sys2Proof/Machine/Step.lean ====
section
/-! DEFINITION. One step: the block accepts the presented word, decodes it and performs the operation (spec/30_encoding.md
R80, R97; spec/20_memory.md R66); then the host makes its next move (log 6). -/

namespace Sys2Proof.Machine

/-- R80, R97: with `cmd_valid` = 0 nothing happens; else the word on `cmd` is decoded and its operation performed, or it is
refused and there is no step (R91, R92). -/
def step (s : State) : Host.Outcome State Fault Refusal :=
  match s.fetch with
  | none => .next s.idle.advanceHost
  | some w =>
    match decode w with
    | .ok i => afterExec (exec i s)
    | .error e => .refused (refusalOf e)

/-- An opcode-table word presented on the command port, so that the very next step accepts it (log 14). -/
def State.withFetchWord (s : State) (nbits w : Nat) : State :=
  s.presentWord (wordOfTable nbits w)

end Sys2Proof.Machine
end

