-- ==== Sys2Proof/Machine/Environment.lean ====
section
/-! DEFINITION. What the spec says of the block's environment, as functions that no step calls: the control cycle CYC the
host presents (spec/44_system.md R250; spec/30_encoding.md R96), the FaultMonitor's contract (spec/60_exceptions.md R262),
and the words a host may present (R91, R92, R312). -/

namespace Sys2Proof.Machine

variable {α : Type}

/-- The wires with a command presented and the operand levels as they are. -/
def Wires.present (w : Wires α) (word : Word) : Wires α := { w with cmdValid := true, cmd := word }

/-- R250: `CYC raw, dir, dial ; ia=, ib=, ic=, id=`: the two moves PSR, then CSS with `in_theta` and `in_speed` wired to
the PositionSensor. The levels of the ports neither samples are those of `w`. -/
def cycMoves (w : Wires α) (raw : RawWord) (dir : Dir) (dial : Count) (ia ib ic id : α) : List (Wires α) :=
  [w.present (encode (.psr raw)),
   { w.present (encode (.css dir dial)) with
      inIA := ia, inIB := ib, inIC := ic, inID := id, inTheta := .sensor, inSpeed := .sensor }]

/-- R262: the FaultMonitor's four thresholds, which the block does not have. -/
structure Thresholds (α : Type) where
  a : α
  b : α
  c : α
  d : α
deriving DecidableEq, Repr

/-- R262: one comparison of the monitor: a current strictly above its threshold overwrites the code so far. -/
def monitorPhase (N : NumOps α) (limit current : α) (code sofar : FaultCode) : FaultCode :=
  if N.lt limit current then code else sofar

/-- R262: `check(currents, thresholds)`: the phases in the order A, B, C, D, the last one over its threshold wins. -/
def faultMonitor (N : NumOps α) (t : Thresholds α) (ia ib ic id : α) : FaultCode :=
  monitorPhase N t.d id .phaseDOvercurrent <|
    monitorPhase N t.c ic .phaseCOvercurrent <|
      monitorPhase N t.b ib .phaseBOvercurrent <|
        monitorPhase N t.a ia .phaseAOvercurrent .none

/-- R91, R92, R312: wires a well-behaved host may present: no reserved word with `cmd_valid` = 1. -/
def Wires.legal (w : Wires α) : Bool := !w.cmdValid || legalWord w.cmd

/-- R312: the host presents no reserved word, now or later. -/
def State.legalHost (s : State) : Bool := s.wires.legal && s.host.all Wires.legal

end Sys2Proof.Machine
end

