-- ==== Sys2Proof/Safety.lean ====
section
/-! DEFINITION. The terms claims use: the operation of an instruction over any NUM, runs as operation sequences
(spec/70_reset_and_hazards.md R313), the reference instantiation of NUM (spec/00_scope.md R9), a NUM whose `<` is a total
order (spec/43_velocity_pi.md R218), the invariant of the machine, and runs that are never refused. -/

namespace Sys2Proof.Machine

variable {α : Type}

/-- The operation of each instruction over a given NUM and CFG. -/
def operate [Zero α] (N : NumOps α) (c : Cfg α) : Instr → Operation α
  | .rst => rstOp
  | .psi => psiOp
  | .psr raw => psrOp N c raw
  | .hce prev => hceOp N prev
  | .piu => piuOp N c
  | .css dir dial => cssOp N c dir dial
  | .flt code => fltOp code

/-- R69, R313: a sequence of operations, each with the port values it samples: the registers after the last one and the
concatenated event list. -/
def operateAll [Zero α] (N : NumOps α) (c : Cfg α) : List (Instr × Ports α) → Regs α → Regs α × List Event
  | [], r => (r, [])
  | (i, p) :: rest, r =>
    let first := operate N c i p r
    let others := operateAll N c rest first.1
    (others.1, first.2 ++ others.2)

/-! ## Kinds of NUM -/

open Classical in
/-- R9, R10: the reference instantiation, the real numbers with exact arithmetic. Only statements use it. -/
noncomputable def realNum : NumOps ℝ where
  add x y := x + y
  sub x y := x - y
  mul x y := x * y
  div x y := x / y
  abs x := |x|
  le x y := decide (x ≤ y)
  lt x y := decide (x < y)
  eq x y := decide (x = y)
  floorMod x c := x - c * (⌊x / c⌋ : ℤ)
  sin := Real.sin
  cos := Real.cos
  ofNat n := (n : ℝ)
  twoPi := 2 * Real.pi
  sixty := 60

/-- R218: a NUM whose `<` is a total order, with `<=` its reverse complement. -/
structure TotalOrder (N : NumOps α) : Prop where
  irrefl : ∀ x, N.lt x x = false
  trans : ∀ x y z, N.lt x y = true → N.lt y z = true → N.lt x z = true
  total : ∀ x y, N.lt x y = true ∨ N.eq x y = true ∨ N.lt y x = true
  le_iff : ∀ x y, N.le x y = !N.lt y x

/-- R218: `x` lies within the output limits. -/
def WithinLimits (N : NumOps α) (c : Cfg α) (x : α) : Prop :=
  N.le c.outMin x = true ∧ N.le x c.outMax = true

/-- R218 (4): `pi.integ` and `pi.out` are each 0, as a reset leaves them, or within the output limits. -/
def PiBounded [Zero α] (N : NumOps α) (c : Cfg α) (r : Regs α) : Prop :=
  (r.pi.integ = 0 ∨ WithinLimits N c r.pi.integ) ∧ (r.pi.out = 0 ∨ WithinLimits N c r.pi.out)

/-- R171, R180: `x` lies in one control period, `0 <= x < CTRL_THETA`. -/
def InControlPeriod [Zero α] (N : NumOps α) (c : Cfg α) (x : α) : Prop :=
  N.le 0 x = true ∧ N.lt x c.ctrlTheta = true

/-! ## The invariant -/

/-- What holds of the registers between operations, over any NUM: FAULT exactly when a code is latched (R241, R245); the
decimation counter below `SPEED_RATE` (R176); in INIT every `cs` register at its reset value (R162); in current mode the
counter and the speed reference 0 (R174); and a valid selection is some table entry's (R164). -/
def RegsInv [Zero α] (c : Cfg α) (r : Regs α) : Prop :=
  (r.cs.state = .fault ↔ r.cs.fault ≠ .none) ∧
  r.cs.cnt.toNat < c.speedRate ∧
  (r.cs.state = .init → r.cs = CsRegs.reset) ∧
  (c.mode = .current → r.cs.cnt = 0 ∧ r.cs.speedRef = 0) ∧
  (r.cs.selValid = true → ∃ d, ∃ e ∈ (c.table d).toList, r.cs.active = e.phase ∧ r.cs.boot = e.boot)

/-- The machine's invariant: `RegsInv` of its configuration, and the event list of the latest operation is empty, the four
Demagnetize events of R183 and R245, or the five events of R189. -/
def State.Inv (s : State) : Prop :=
  RegsInv Config.cfg s.regs ∧
  (s.events = [] ∨ s.events = demagnetizeAll ∨
    ∃ active boot, ∃ sw : Switch,
      s.events = demagnetizeOthers active ++ [⟨active, driveCmd sw⟩, ⟨boot, .chargeBootstrapCapacitor⟩])

/-! ## Safe runs -/

/-- R91: a run of `k` steps in which no word is refused. -/
def SafeRun (s : State) (k : Nat) : Prop := ∃ t, Sys2Proof.core.run k s = .next t

/-- R312, R269: the host presents no `RST` with `cmd_valid` = 1, now or later. -/
def State.noReinit (s : State) : Bool :=
  (s.wires :: s.host).all fun w => !(w.cmdValid && decide (decode w.cmd = .ok .rst))

end Sys2Proof.Machine
end

