-- ==== Sys2Proof/Certificates/Slice0/Obligations.lean ====
section
/-! DEFINITION. The statements for the provers, from the numbered rules of spec/. A rule marked there as a decision of the
spec is named with its decision; what is a choice of this model is named with its log entry. Statements about `exec` are
about the machine, whose NUM and CFG are uninterpreted but for what `Setup` says (R10, R45, R250); statements over every `N`
and `c` hold of each NUM and CFG; those about `realNum` are the rules' statements in the reference instantiation (R9). -/

open Sys2Proof Sys2Proof.Machine

/-! ## Encoding (spec/30_encoding.md) -/

/-- Words written out from R82 decode to the operations they stand for, ignored bits included; reserved words are refused
by name. -/
def Obligations.SpecEncodingsDecode : Prop :=
  decode 0x1FFFFFFF = .ok .rst ∧ decode 0x2ABCDEF0 = .ok .psi ∧
  decode 0x3F401402 = .ok (.psr 0x401402) ∧
  decode 0x40000001 = .ok (.hce .on) ∧ decode 0x4FFFFFFE = .ok (.hce .off) ∧
  decode 0x50000000 = .ok .piu ∧
  decode 0x60001555 = .ok (.css .ccw 1365) ∧ decode 0x6FFFE800 = .ok (.css .cw 2048) ∧
  decode 0x7000000B = .ok (.flt .phaseAOvercurrent) ∧ decode 0x70000007 = .error .reservedFaultCode ∧
  decode 0x0FFFFFFF = .error (.reservedOp 0) ∧ decode 0xF0000000 = .error (.reservedOp 15)

/-- R97 (derived in the spec): decode after encode is the identity, for every operation and every operand value. -/
def Obligations.DecodeAfterEncodeIsIdentity : Prop :=
  ∀ i : Instr, i.wf = true → decode (encode i) = .ok i

/-- R97 (derived in the spec), R82: encode after decode clears the ignored bits and keeps every bit the operation reads. -/
def Obligations.EncodeAfterDecodeClearsIgnoredBits : Prop :=
  ∀ (w : Word) (i : Instr), decode w = .ok i → encode i = w &&& usedBits i

/-- R82: ignored bits change nothing: words that agree on the bits an operation reads decode alike. -/
def Obligations.IgnoredBitsChangeNothing : Prop :=
  ∀ (w w' : Word) (i : Instr), decode w = .ok i → w' &&& usedBits i = w &&& usedBits i → decode w' = .ok i

/-- R82, R83, R84, R90: `op` is bits 31:28, and every operand is the unsigned value of its field, at its width; the halves
of `raw` are bits 11:0 and 23:12. -/
def Obligations.OperandsAreTheFieldsOfTheWord : Prop :=
  ∀ w : Word,
    (w.toNat / 2 ^ 28 = 1 → decode w = .ok .rst) ∧
    (w.toNat / 2 ^ 28 = 2 → decode w = .ok .psi) ∧
    (w.toNat / 2 ^ 28 = 3 → ∃ raw, decode w = .ok (.psr raw) ∧ raw.toNat = w.toNat % 2 ^ 24 ∧
      (rawLower raw).toNat = w.toNat % 2 ^ 12 ∧ (rawUpper raw).toNat = w.toNat / 2 ^ 12 % 2 ^ 12) ∧
    (w.toNat / 2 ^ 28 = 4 → decode w = .ok (.hce (if w.toNat % 2 = 1 then .on else .off))) ∧
    (w.toNat / 2 ^ 28 = 5 → decode w = .ok .piu) ∧
    (w.toNat / 2 ^ 28 = 6 → ∃ dial,
      decode w = .ok (.css (if w.toNat / 2 ^ 12 % 2 = 1 then .ccw else .cw) dial) ∧ dial.toNat = w.toNat % 2 ^ 12) ∧
    (w.toNat / 2 ^ 28 = 7 → w.toNat % 8 ≠ 7 → ∃ code, decode w = .ok (.flt code) ∧ code.code.toNat = w.toNat % 8)

/-- R91, R92: exactly the words with `op` 0 or 8 to 15, and `FLT` with code 7, are refused, each by its own name; every
other word is an operation. -/
def Obligations.ExactlyTheReservedWordsAreRefused : Prop :=
  ∀ w : Word,
    (decode w = .error (.reservedOp (opField w)) ↔ w.toNat / 2 ^ 28 = 0 ∨ 8 ≤ w.toNat / 2 ^ 28) ∧
    (decode w = .error .reservedFaultCode ↔ w.toNat / 2 ^ 28 = 7 ∧ w.toNat % 8 = 7) ∧
    ((∃ i, decode w = .ok i) ↔ legalWord w = true)

/-- R83: a word decodes to an operation only if it meets that operation's match under its mask, and then no other row's. -/
def Obligations.DecodedWordMeetsItsOpcodeRowAlone : Prop :=
  ∀ (w : Word) (i : Instr), decode w = .ok i → ∀ row ∈ opcodeTable, (w &&& row.opMask = row.opMatch ↔ row.mnemonic = i.mnemonic)

/-! ## The step (spec/30_encoding.md R80, spec/20_memory.md R63, R66) -/

/-- R80, R66: with a word presented that decodes to `i`, a step is `exec i` and then the host's next move, which changes
nothing but the wires and the list of later moves (the host's move is the model's own, log 6). -/
def Obligations.StepPerformsTheDecodedOperation : Prop :=
  ∀ (s t : State) (i : Instr), s.wires.cmdValid = true → decode s.wires.cmd = .ok i → exec i s = .next t →
    ∃ u, step s = .next u ∧ u.regs = t.regs ∧ u.events = t.events ∧
      (t.host = [] → u.wires = { t.wires with cmdValid := false } ∧ u.host = []) ∧
      (∀ w rest, t.host = w :: rest → u.wires = w ∧ u.host = rest)

/-- R80: with `cmd_valid` = 0 no register changes and no driver event is sent. -/
def Obligations.NoCommandChangesNothing : Prop :=
  ∀ s : State, s.wires.cmdValid = false → ∃ u, step s = .next u ∧ u.regs = s.regs ∧ u.events = []

/-- R91, R92: a reserved word has no step; the refusal names the reason. -/
def Obligations.ReservedWordHasNoStep : Prop :=
  ∀ s : State, s.wires.cmdValid = true →
    (s.wires.cmd.toNat / 2 ^ 28 = 0 ∨ 8 ≤ s.wires.cmd.toNat / 2 ^ 28 →
      step s = .refused (.reservedOp (opField s.wires.cmd))) ∧
    (s.wires.cmd.toNat / 2 ^ 28 = 7 → s.wires.cmd.toNat % 8 = 7 → step s = .refused .reservedFaultCode)

/-- R260: no operation, on any operand values and in any state, traps or stops: each answers a next state, with the wires
and the host's later moves untouched; and no step faults. -/
def Obligations.EveryOperationCompletes : Prop :=
  (∀ (i : Instr) (s : State), ∃ t, exec i s = .next t ∧ t.wires = s.wires ∧ t.host = s.host) ∧
  (∀ (s : State) (f : Fault), step s ≠ .fault f)

/-- R66, R63, R250: what `exec` does is the operation of the instruction in the block's NUM and CFG, on the ports sampled
once: the registers and the event list are the operation's, the wires and the host's later moves stay. It carries the
statements over every NUM and CFG to the machine. -/
def Obligations.ExecIsTheOperationOnTheSampledPorts : Prop :=
  ∀ (i : Instr) (s : State), ∃ p : Ports Value,
    p.inRef = s.wires.inRef ∧ p.inAct = s.wires.inAct ∧ p.inBeta = s.wires.inBeta ∧ p.inMeas = s.wires.inMeas ∧
    p.inIA = s.wires.inIA ∧ p.inIB = s.wires.inIB ∧ p.inIC = s.wires.inIC ∧ p.inID = s.wires.inID ∧
    (∀ x, s.wires.inTheta = .level x → p.inTheta = x) ∧ (s.wires.inTheta = .sensor → p.inTheta = s.regs.ps.theta) ∧
    (∀ x, s.wires.inSpeed = .level x → p.inSpeed = x) ∧ (s.wires.inSpeed = .sensor → p.inSpeed = s.regs.ps.rpm) ∧
    exec i s = .next { s with
      regs := (operate Config.num Config.cfg i p s.regs).1
      events := (operate Config.num Config.cfg i p s.regs).2 }

/-- R63: the ports an operation does not use cannot affect it, over any NUM and CFG. -/
def Obligations.UnusedPortsCannotAffectAnOperation : Prop :=
  ∀ (α : Type) [Zero α] (N : NumOps α) (c : Cfg α) (i : Instr) (p q : Ports α) (r : Regs α),
    (match i with
      | .hce _ => p.inRef = q.inRef ∧ p.inAct = q.inAct ∧ p.inBeta = q.inBeta
      | .piu => p.inRef = q.inRef ∧ p.inMeas = q.inMeas
      | .css _ _ => p.inIA = q.inIA ∧ p.inIB = q.inIB ∧ p.inIC = q.inIC ∧ p.inID = q.inID ∧
          p.inTheta = q.inTheta ∧ p.inSpeed = q.inSpeed
      | _ => True) →
    operate N c i p r = operate N c i q r

/-! ## RST, PSI (spec/44_system.md R241, spec/40_position_sensor.md R110) -/

/-- R241, R50, R290: from any state `RST` gives all 23 registers their reset values and sends nothing; power-on reset has
exactly that effect on registers and events. -/
def Obligations.RstGivesEveryRegisterItsResetValue : Prop :=
  ∀ s : State, ∃ t, exec .rst s = .next t ∧ t.wires = s.wires ∧ t.host = s.host ∧ t.events = [] ∧
    t.regs.ps = { rawCount := 0, compCount := 0, theta := 0, sinPrev := 0, cosPrev := 0, wFilt := 0, rpm := 0 } ∧
    t.regs.hc = { upper := 0, lower := 0, out := .off } ∧
    t.regs.pi = { integ := 0, out := 0 } ∧
    t.regs.cs = { state := .init, cnt := 0, iRef := 0, sw := .off, fault := .none, speedRef := 0, thetaCtl := 0,
                  thetaC := 0, selValid := false, active := .a, boot := .a } ∧
    State.reset.regs = t.regs ∧ State.reset.events = t.events

/-- R110: `PSI` zeroes the seven `ps` registers and leaves every other register, the wires and the host's moves alone; no
event. -/
def Obligations.PsiZeroesTheSensorRegistersAlone : Prop :=
  ∀ s : State, exec .psi s = .next { s with
    regs := { s.regs with
      ps := { rawCount := 0, compCount := 0, theta := 0, sinPrev := 0, cosPrev := 0, wFilt := 0, rpm := 0 } }
    events := [] }

/-! ## PSR (spec/40_position_sensor.md) -/

/-- R111 to R120: `PSR raw` writes the seven `ps` registers and nothing else. The halves `raw mod 4096` and `raw / 4096`
equal: the raw count is the lower half and the compensated count `(lower + ALIGN_OFFSET) mod 4096`; unequal: both counts are
retained. Angle, sine, cosine, velocity, filter and RPM follow by the rules' formulas in either case. -/
def Obligations.PsrWritesTheSensorRegistersByTheFormulas : Prop :=
  ∀ (raw : RawWord) (s : State), ∃ ps : PsRegs Value,
    exec (.psr raw) s = .next { s with regs := { s.regs with ps := ps }, events := [] } ∧
    (raw.toNat % 4096 = raw.toNat / 4096 →
      ps.rawCount.toNat = raw.toNat % 4096 ∧
      ps.compCount.toNat = (raw.toNat % 4096 + Config.cfg.alignOffset) % 4096) ∧
    (raw.toNat % 4096 ≠ raw.toNat / 4096 →
      ps.rawCount = s.regs.ps.rawCount ∧ ps.compCount = s.regs.ps.compCount) ∧
    ps.theta = Config.num.div (Config.num.mul (Config.num.ofNat ps.compCount.toNat) Config.num.twoPi)
      (Config.num.ofNat 4095) ∧
    ps.sinPrev = Config.num.sin ps.theta ∧ ps.cosPrev = Config.num.cos ps.theta ∧
    (∃ wRaw, wRaw = Config.num.div
        (Config.num.sub (Config.num.mul ps.cosPrev (Config.num.sub ps.sinPrev s.regs.ps.sinPrev))
          (Config.num.mul ps.sinPrev (Config.num.sub ps.cosPrev s.regs.ps.cosPrev))) Config.cfg.dt ∧
      ps.wFilt = Config.num.add s.regs.ps.wFilt
        (Config.num.mul Config.cfg.kf (Config.num.sub wRaw s.regs.ps.wFilt))) ∧
    ps.rpm = Config.num.mul (Config.num.abs ps.wFilt) (Config.num.div Config.num.sixty Config.num.twoPi)

/-- R123 (derived in the spec): after an accepted sample the angle depends on `raw` alone, not on the state before; after a
rejected one the counts are those before it. -/
def Obligations.AcceptedAngleDependsOnTheWordAlone : Prop :=
  ∀ (raw : RawWord) (s s' t t' : State), raw.toNat % 4096 = raw.toNat / 4096 →
    exec (.psr raw) s = .next t → exec (.psr raw) s' = .next t' →
    t.regs.ps.theta = t'.regs.ps.theta ∧ t.regs.ps.compCount = t'.regs.ps.compCount ∧
    t.regs.ps.rawCount = t'.regs.ps.rawCount

/-- R115, in the reference instantiation: the angle lies in `[0, 2π]`, and `2π` is attained exactly at count 4095. -/
def Obligations.AngleReachesTwoPiAtCount4095 : Prop :=
  ∀ n : Count, 0 ≤ angleOf realNum n ∧ angleOf realNum n ≤ 2 * Real.pi ∧
    (angleOf realNum n = 2 * Real.pi ↔ n.toNat = 4095)

/-- R122 (derived in the spec), in the reference instantiation: the raw velocity is the sine of the angle step over `DT`,
hence at most `1 ÷ DT` in magnitude. -/
def Obligations.RawVelocityIsTheSineOfTheAngleStep : Prop :=
  ∀ (c : Cfg ℝ) (θ θp : ℝ), 0 < c.dt →
    rawVelocity realNum c (Real.sin θ) (Real.cos θ) (Real.sin θp) (Real.cos θp) = Real.sin (θ - θp) / c.dt ∧
    |rawVelocity realNum c (Real.sin θ) (Real.cos θ) (Real.sin θp) (Real.cos θp)| ≤ 1 / c.dt

/-- R121 (derived in the spec), in the reference instantiation: the first `PSR` after `PSI` or `RST` reports zero velocity
whatever the rotor position. -/
def Obligations.FirstReadAfterInitReportsZeroVelocity : Prop :=
  ∀ (c : Cfg ℝ) (i : Instr) (raw : RawWord) (p q : Ports ℝ) (r : Regs ℝ), i = .psi ∨ i = .rst →
    (operateAll realNum c [(i, p), (.psr raw, q)] r).1.ps.wFilt = 0 ∧
    (operateAll realNum c [(i, p), (.psr raw, q)] r).1.ps.rpm = 0

/-- R120 (its derived consequence), in the reference instantiation: a rejected sample read after another `PSR` sees no
movement: the angle is kept and the filter decays by `KF`. -/
def Obligations.RejectedSampleDecaysTheFilter : Prop :=
  ∀ (c : Cfg ℝ) (raw₁ raw₂ : RawWord) (p q : Ports ℝ) (r : Regs ℝ), raw₂.toNat % 4096 ≠ raw₂.toNat / 4096 →
    (operateAll realNum c [(.psr raw₁, p), (.psr raw₂, q)] r).1.ps.theta =
      (operateAll realNum c [(.psr raw₁, p)] r).1.ps.theta ∧
    (operateAll realNum c [(.psr raw₁, p), (.psr raw₂, q)] r).1.ps.wFilt =
      (1 - c.kf) * (operateAll realNum c [(.psr raw₁, p)] r).1.ps.wFilt

/-- R118, R119, in the reference instantiation: for `0 <= KF <= 1` the filter's new value lies between its old value and
the raw velocity, `KF = 1` passes it and `KF = 0` holds; the RPM is never negative. -/
def Obligations.FilterMovesTowardTheRawVelocity : Prop :=
  ∀ (c : Cfg ℝ) (w x : ℝ),
    (0 ≤ c.kf → c.kf ≤ 1 → min w x ≤ lowPass realNum c w x ∧ lowPass realNum c w x ≤ max w x) ∧
    (c.kf = 1 → lowPass realNum c w x = x) ∧ (c.kf = 0 → lowPass realNum c w x = w) ∧
    0 ≤ rpmOf realNum w

/-! ## HCE (spec/41_hysteresis.md) -/

/-- R141, R142, R143: `HCE prev` writes the three `hc` registers and nothing else; the limits are reference plus and minus
band; at or above the upper limit off, tested first; else at or below the lower limit on; else `prev`. -/
def Obligations.HceComparesTheCurrentWithTheBand : Prop :=
  ∀ (prev : Switch) (s : State), ∃ hc : HcRegs Value,
    exec (.hce prev) s = .next { s with regs := { s.regs with hc := hc }, events := [] } ∧
    hc.upper = Config.num.add s.wires.inRef s.wires.inBeta ∧
    hc.lower = Config.num.sub s.wires.inRef s.wires.inBeta ∧
    (Config.num.le hc.upper s.wires.inAct = true → hc.out = .off) ∧
    (Config.num.le hc.upper s.wires.inAct = false → Config.num.le s.wires.inAct hc.lower = true → hc.out = .on) ∧
    (Config.num.le hc.upper s.wires.inAct = false → Config.num.le s.wires.inAct hc.lower = false → hc.out = prev)

/-- R145 (derived in the spec), in the reference instantiation with a positive band: off above, on below, hold strictly
between, whatever `prev` is; raising the current never turns off into on; the limits are twice the band apart. -/
def Obligations.ComparatorLawsOverTheReals : Prop :=
  ∀ (ref act act' beta : ℝ) (prev : Switch), 0 < beta →
    (ref + beta ≤ act → (comparator realNum ref act beta prev).out = .off) ∧
    (act ≤ ref - beta → (comparator realNum ref act beta prev).out = .on) ∧
    (ref - beta < act → act < ref + beta → (comparator realNum ref act beta prev).out = prev) ∧
    (act ≤ act' → (comparator realNum ref act beta prev).out = .off →
      (comparator realNum ref act' beta prev).out = .off) ∧
    (comparator realNum ref act beta prev).upper - (comparator realNum ref act beta prev).lower = 2 * beta

/-! ## PIU (spec/43_velocity_pi.md) -/

/-- R211 to R216: `PIU` writes the two `pi` registers and nothing else, by the rules' formulas; `clamp` tests its upper
bound first (R10). -/
def Obligations.PiuWritesThePiRegistersByTheFormulas : Prop :=
  ∀ s : State, ∃ (e ip ic u : Value) (pi : PiRegs Value),
    exec .piu s = .next { s with regs := { s.regs with pi := pi }, events := [] } ∧
    e = Config.num.sub s.wires.inRef s.wires.inMeas ∧
    ip = Config.num.add s.regs.pi.integ (Config.num.mul Config.cfg.ki e) ∧
    ic = (if Config.num.lt Config.cfg.outMax ip then Config.cfg.outMax
      else if Config.num.lt ip Config.cfg.outMin then Config.cfg.outMin else ip) ∧
    u = Config.num.add (Config.num.mul Config.cfg.kp e) ic ∧
    pi.out = (if Config.num.lt Config.cfg.outMax u then Config.cfg.outMax
      else if Config.num.lt u Config.cfg.outMin then Config.cfg.outMin else u) ∧
    (Config.num.lt Config.cfg.outMax u = false ∧ Config.num.lt u Config.cfg.outMin = false → pi.integ = ic) ∧
    (Config.num.lt Config.cfg.outMax u = true ∨ Config.num.lt u Config.cfg.outMin = true →
      pi.integ = clamp Config.num (Config.num.sub ic (Config.num.mul Config.cfg.kc (Config.num.sub u pi.out)))
        Config.cfg.outMin Config.cfg.outMax)

/-- R218 (derived in the spec): in any NUM whose `<` is a total order, output and integrator lie within the output limits
after any update, whatever the integrator was. -/
def Obligations.PiUpdateStaysWithinTheLimits : Prop :=
  ∀ (α : Type) (N : NumOps α) (c : Cfg α) (ref meas integ : α), TotalOrder N → N.le c.outMin c.outMax = true →
    WithinLimits N c (piUpdate N c ref meas integ).out ∧ WithinLimits N c (piUpdate N c ref meas integ).integ

/-- R218 (4) (derived in the spec), R210: over any NUM whose `<` is a total order, that `pi.integ` and `pi.out` are each 0 or
within the output limits holds at reset and is kept by every operation, on any ports and from any registers, hence by every
run: sustained saturation does not let the integrator grow. -/
def Obligations.IntegratorStaysBoundedInEveryRun : Prop :=
  ∀ (α : Type) [Zero α] (N : NumOps α) (c : Cfg α), TotalOrder N → c.ok N →
    PiBounded N c Regs.reset ∧
    (∀ (i : Instr) (p : Ports α) (r : Regs α), PiBounded N c r → PiBounded N c (operate N c i p r).1) ∧
    (∀ (ops : List (Instr × Ports α)) (r : Regs α), PiBounded N c r → PiBounded N c (operateAll N c ops r).1)

/-- R219 (derived in the spec), in the reference instantiation: with `KI = 0`, `KP = 1`, a zero integrator and 0 within the
limits, the output is the clamped error, and the integrator stays 0 if moreover `KC = 0`. -/
def Obligations.ProportionalOutputIsTheClampedError : Prop :=
  ∀ (c : Cfg ℝ) (ref meas : ℝ), c.ki = 0 → c.kp = 1 → c.outMin ≤ 0 → 0 ≤ c.outMax →
    (piUpdate realNum c ref meas 0).out = max c.outMin (min (ref - meas) c.outMax) ∧
    (c.kc = 0 → (piUpdate realNum c ref meas 0).integ = 0)

/-- R220 (derived in the spec), in the reference instantiation: with the integrator at `OUT_MAX` and a positive error the
output is `OUT_MAX` and the integrator does not exceed it; with `KC = 0` it stays there; with `KC >= 1` it does not exceed
`OUT_MAX − KP × e`, or is at `OUT_MIN`. -/
def Obligations.AntiWindupBoundAtTheUpperLimit : Prop :=
  ∀ (c : Cfg ℝ) (ref meas : ℝ), c.outMin ≤ c.outMax → 0 ≤ c.ki → 0 ≤ c.kp → 0 ≤ c.kc → 0 < ref - meas →
    (piUpdate realNum c ref meas c.outMax).out = c.outMax ∧
    (piUpdate realNum c ref meas c.outMax).integ ≤ c.outMax ∧
    (c.kc = 0 → (piUpdate realNum c ref meas c.outMax).integ = c.outMax) ∧
    (1 ≤ c.kc → (piUpdate realNum c ref meas c.outMax).integ ≤ c.outMax - c.kp * (ref - meas) ∨
      (piUpdate realNum c ref meas c.outMax).integ = c.outMin)

/-! ## CSS (spec/42_commutation.md) -/

/-- R162 (decision D12): in INIT, `CSS` zeroes every register of `cs`, `pi` and `hc`, goes to CONTROL, sends nothing,
whatever its operands and the ports are; `ps`, the wires and the host's moves are untouched. -/
def Obligations.CssInInitZeroesAndEntersControl : Prop :=
  ∀ (dir : Dir) (dial : Count) (s : State), s.regs.cs.state = .init →
    exec (.css dir dial) s = .next { s with
      regs := { ps := s.regs.ps
                hc := { upper := 0, lower := 0, out := .off }
                pi := { integ := 0, out := 0 }
                cs := { state := .control, cnt := 0, iRef := 0, sw := .off, fault := .none, speedRef := 0, thetaCtl := 0,
                        thetaC := 0, selValid := false, active := .a, boot := .a } }
      events := [] }

/-- R163: in FAULT, `CSS` changes no register and sends nothing; of all operations in FAULT, `RST` alone leaves it. -/
def Obligations.CssInFaultDoesNothing : Prop :=
  ∀ s : State, s.regs.cs.state = .fault →
    (∀ (dir : Dir) (dial : Count), exec (.css dir dial) s = .next { s with events := [] }) ∧
    (∀ i : Instr, ∃ t, exec i s = .next t ∧ (t.regs.cs.state = .fault ↔ i ≠ .rst))

/-- R171, R180: in CONTROL the two angle registers are the wrapped `in_theta` and its offset, re-wrapped sum; `in_theta` is
the host's level or, wired, `ps.theta` (R250). By R10 (decision D15) both lie in `[0, CTRL_THETA)`, a negative angle or offset
included, and differ from what is wrapped by an integer multiple of `CTRL_THETA` (its form in NUM's operations is log 16). -/
def Obligations.CssInControlWrapsTheAngle : Prop :=
  ∀ (dir : Dir) (dial : Count) (s : State), s.regs.cs.state = .control →
    ∃ (t : State) (theta sum : Value), exec (.css dir dial) s = .next t ∧
      (∀ x, s.wires.inTheta = .level x → theta = x) ∧ (s.wires.inTheta = .sensor → theta = s.regs.ps.theta) ∧
      sum = Config.num.add t.regs.cs.thetaCtl
        (match dir with
          | .cw => Config.cfg.thetaOffsetCw
          | .ccw => Config.cfg.thetaOffsetCcw) ∧
      t.regs.cs.thetaCtl = Config.num.floorMod theta Config.cfg.ctrlTheta ∧
      t.regs.cs.thetaC = Config.num.floorMod sum Config.cfg.ctrlTheta ∧
      InControlPeriod Config.num Config.cfg t.regs.cs.thetaCtl ∧ InControlPeriod Config.num Config.cfg t.regs.cs.thetaC ∧
      Config.num.CongruentMod Config.cfg.ctrlTheta theta t.regs.cs.thetaCtl ∧
      Config.num.CongruentMod Config.cfg.ctrlTheta sum t.regs.cs.thetaC

/-- R172, R173, R174, R176, R177, R178: in CONTROL, step (c). Current mode: the mapped dial is the reference, and `pi`,
`cs.cnt`, `cs.speedRef` are kept. Speed mode: the mapped dial is `cs.speedRef`; when `cs.cnt + 1 >= SPEED_RATE` the PI
controller runs on it and `in_speed`, its output is the reference and the counter returns to 0; otherwise the counter
counts and reference and `pi` are kept. -/
def Obligations.CssInControlSelectsTheReference : Prop :=
  ∀ (dir : Dir) (dial : Count) (s : State), s.regs.cs.state = .control →
    ∃ (t : State) (ratio : Value), exec (.css dir dial) s = .next t ∧
      ratio = Config.num.div (Config.num.ofNat dial.toNat) (Config.num.ofNat 4095) ∧
      match Config.cfg.mode with
      | .current =>
          t.regs.cs.iRef = Config.num.mul ratio Config.cfg.maxCurrentRef ∧ t.regs.pi = s.regs.pi ∧
          t.regs.cs.cnt = s.regs.cs.cnt ∧ t.regs.cs.speedRef = s.regs.cs.speedRef
      | .speed =>
          t.regs.cs.speedRef = Config.num.add Config.cfg.minSpeed
            (Config.num.mul ratio (Config.num.sub Config.cfg.maxSpeed Config.cfg.minSpeed)) ∧
          (Config.cfg.speedRate ≤ s.regs.cs.cnt.toNat + 1 →
            t.regs.cs.cnt = 0 ∧
            t.regs.pi = piUpdate Config.num Config.cfg t.regs.cs.speedRef
              (match s.wires.inSpeed with
                | .level x => x
                | .sensor => s.regs.ps.rpm) s.regs.pi.integ ∧
            t.regs.cs.iRef = t.regs.pi.out) ∧
          (s.regs.cs.cnt.toNat + 1 < Config.cfg.speedRate →
            t.regs.cs.cnt.toNat = s.regs.cs.cnt.toNat + 1 ∧ t.regs.pi = s.regs.pi ∧
            t.regs.cs.iRef = s.regs.cs.iRef)

/-- R181, R183, R185 to R189: in CONTROL, the first entry in table order whose threshold is not exceeded (CW `<=`, CCW `>=`)
is driven: its phase and boot phase are recorded, the comparator decides on that phase's current with `cs.sw` as the
previous state, and five events are sent in order. With no such entry (decision D17) all four phases are demagnetized,
`cs.selValid` is cleared and `cs.sw`, `cs.active`, `cs.boot` and `hc` are kept. -/
def Obligations.CssInControlDrivesTheFirstMatchingEntry : Prop :=
  ∀ (dir : Dir) (dial : Count) (s : State), s.regs.cs.state = .control →
    ∃ (t : State) (hit : Fin 4 → Bool), exec (.css dir dial) s = .next t ∧
      (∀ k : Fin 4, hit k = match dir with
        | .cw => Config.num.le t.regs.cs.thetaC Config.cfg.tableCw[k].off
        | .ccw => Config.num.le Config.cfg.tableCcw[k].off t.regs.cs.thetaC) ∧
      (∀ k : Fin 4, hit k = true → (∀ j : Fin 4, j < k → hit j = false) →
        t.regs.cs.selValid = true ∧
        t.regs.cs.active = (Config.cfg.table dir)[k].phase ∧ t.regs.cs.boot = (Config.cfg.table dir)[k].boot ∧
        t.regs.hc = comparator Config.num t.regs.cs.iRef
          (match t.regs.cs.active with
            | .a => s.wires.inIA
            | .b => s.wires.inIB
            | .c => s.wires.inIC
            | .d => s.wires.inID) Config.cfg.hystBand s.regs.cs.sw ∧
        t.regs.cs.sw = t.regs.hc.out ∧
        t.events = (([.a, .b, .c, .d] : List Phase).filter (· ≠ t.regs.cs.active)).map (⟨·, .demagnetize⟩) ++
          [⟨t.regs.cs.active, if t.regs.hc.out = .on then .magnetize else .freewheel⟩,
           ⟨t.regs.cs.boot, .chargeBootstrapCapacitor⟩]) ∧
      ((∀ k : Fin 4, hit k = false) →
        t.regs.cs.selValid = false ∧ t.regs.cs.active = s.regs.cs.active ∧ t.regs.cs.boot = s.regs.cs.boot ∧
        t.regs.cs.sw = s.regs.cs.sw ∧ t.regs.hc = s.regs.hc ∧
        t.events = [⟨.a, .demagnetize⟩, ⟨.b, .demagnetize⟩, ⟨.c, .demagnetize⟩, ⟨.d, .demagnetize⟩])

/-- R190 (derived in the spec): the frame of `CSS` in CONTROL, over any NUM and CFG: never `cs.state`, `cs.fault` or `ps`;
`pi` and `cs.cnt`, `cs.speedRef` only in speed mode; `pi` only on a tick. -/
def Obligations.CssInControlLeavesTheRestAlone : Prop :=
  ∀ (α : Type) [Zero α] (N : NumOps α) (c : Cfg α) (dir : Dir) (dial : Count) (p : Ports α) (r r' : Regs α)
    (ev : List Event), r.cs.state = .control → operate N c (.css dir dial) p r = (r', ev) →
    r'.cs.state = .control ∧ r'.cs.fault = r.cs.fault ∧ r'.ps = r.ps ∧
    (c.mode = .current → r'.pi = r.pi ∧ r'.cs.cnt = r.cs.cnt ∧ r'.cs.speedRef = r.cs.speedRef) ∧
    (r.cs.cnt.toNat + 1 < c.speedRate → r'.pi = r.pi) ∧
    (r'.cs.selValid = false → r'.cs.sw = r.cs.sw ∧ r'.cs.active = r.cs.active ∧ r'.cs.boot = r.cs.boot ∧ r'.hc = r.hc)

/-- R187, R189, R36: in CONTROL, over any NUM and CFG, an invocation that finds an entry sends exactly five events: the
active phase is never demagnetized, each other phase is, and the last event charges the boot phase. -/
def Obligations.ActivePhaseIsNeverDemagnetized : Prop :=
  ∀ (α : Type) [Zero α] (N : NumOps α) (c : Cfg α) (dir : Dir) (dial : Count) (p : Ports α) (r r' : Regs α)
    (ev : List Event), r.cs.state = .control → operate N c (.css dir dial) p r = (r', ev) → r'.cs.selValid = true →
    ev.length = 5 ∧ ev.getLast? = some ⟨r'.cs.boot, .chargeBootstrapCapacitor⟩ ∧
    (∀ q : Phase, (⟨q, .demagnetize⟩ : Event) ∈ ev ↔ q ≠ r'.cs.active)

/-- R186, R193 (e): in CONTROL, when the walk finds an entry, the currents of the three inactive phases cannot affect the
operation; in current mode neither can `in_speed` (R174). -/
def Obligations.InactiveCurrentsCannotAffectControl : Prop :=
  ∀ (α : Type) [Zero α] (N : NumOps α) (c : Cfg α) (dir : Dir) (dial : Count) (p q : Ports α) (r : Regs α)
    (e : TableEntry α), r.cs.state = .control → p.inTheta = q.inTheta → (c.mode = .speed → p.inSpeed = q.inSpeed) →
    tableWalk N c dir (offsetTheta N c dir (wrappedTheta N c p.inTheta)) = some e →
    p.current e.phase = q.current e.phase →
    operate N c (.css dir dial) p r = operate N c (.css dir dial) q r

/-- R182 (derived in the spec), in the reference instantiation: with a CW table whose thresholds do not fall, entry `k` wins
exactly for `off[k−1] < tC <= off[k]`; with a CCW table whose thresholds do not rise, exactly for `off[k] <= tC < off[k−1]`. -/
def Obligations.OrderedTableEntryWinsOnItsInterval : Prop :=
  ∀ (c : Cfg ℝ) (t : ℝ) (e : TableEntry ℝ),
    (c.tableOrdered realNum .cw = true →
      (tableWalk realNum c .cw t = some e ↔
        ∃ k : Fin 4, e = c.tableCw[k] ∧ t ≤ c.tableCw[k].off ∧
          ∀ j : Fin 4, j.val + 1 = k.val → c.tableCw[j].off < t)) ∧
    (c.tableOrdered realNum .ccw = true →
      (tableWalk realNum c .ccw t = some e ↔
        ∃ k : Fin 4, e = c.tableCcw[k] ∧ c.tableCcw[k].off ≤ t ∧
          ∀ j : Fin 4, j.val + 1 = k.val → t < c.tableCcw[j].off))

/-- R171, R180 and, for the second part, R183, in the reference instantiation: both angles lie in `[0, CTRL_THETA)` for
every input angle; a non-negative angle's is the ordinary remainder; and under `TableCovers` the walk always finds an
entry. -/
def Obligations.WrappedAngleAlwaysMeetsACoveringTable : Prop :=
  ∀ (c : Cfg ℝ) (dir : Dir) (x : ℝ), 0 < c.ctrlTheta →
    0 ≤ wrappedTheta realNum c x ∧ wrappedTheta realNum c x < c.ctrlTheta ∧
    0 ≤ offsetTheta realNum c dir x ∧ offsetTheta realNum c dir x < c.ctrlTheta ∧
    (0 ≤ x → ∃ n : ℕ, x = n * c.ctrlTheta + wrappedTheta realNum c x) ∧
    (c.tableCovers realNum dir = true → ∃ e, tableWalk realNum c dir (offsetTheta realNum c dir x) = some e)

/-- R183, R45: over any NUM whose `<` is a total order, whose `<=` is transitive and whose `wrap` is the floored modulo of
R10: under `TableCovers` of the direction, `CSS` in CONTROL always finds an entry, whatever the ports and the offset. -/
def Obligations.CoveringTableAlwaysYieldsAnEntry : Prop :=
  ∀ (α : Type) [Zero α] (N : NumOps α) (c : Cfg α) (dir : Dir) (dial : Count) (p : Ports α) (r r' : Regs α)
    (ev : List Event), TotalOrder N → (∀ x y z, N.le x y = true → N.le y z = true → N.le x z = true) →
    N.FlooredModulo → c.ok N → c.tableCovers N dir = true → r.cs.state = .control →
    operate N c (.css dir dial) p r = (r', ev) →
    r'.cs.selValid = true ∧ InControlPeriod N c r'.cs.thetaCtl ∧ InControlPeriod N c r'.cs.thetaC

/-- R173, R174, R175 (laws derived in the spec), in the reference instantiation: the dial's ends give the ends of the
span, the references stay within it and rise with the dial; 819 gives one fifth, 1365 one third. -/
def Obligations.DialMapsAreMonotoneOntoTheirSpans : Prop :=
  ∀ (c : Cfg ℝ) (m n : Count), c.minSpeed ≤ c.maxSpeed → 0 ≤ c.maxCurrentRef →
    (m ≤ n → speedReference realNum c m ≤ speedReference realNum c n ∧
      currentReference realNum c m ≤ currentReference realNum c n) ∧
    c.minSpeed ≤ speedReference realNum c n ∧ speedReference realNum c n ≤ c.maxSpeed ∧
    0 ≤ currentReference realNum c n ∧ currentReference realNum c n ≤ c.maxCurrentRef ∧
    speedReference realNum c 0 = c.minSpeed ∧ speedReference realNum c 4095 = c.maxSpeed ∧
    currentReference realNum c 0 = 0 ∧ currentReference realNum c 4095 = c.maxCurrentRef ∧
    dialRatio realNum 819 = 1 / 5 ∧ dialRatio realNum 1365 = 1 / 3

/-- R176, R178: decimation, over any NUM. Counted from a counter of 0, after `n` CONTROL invocations in speed mode the
counter is `n mod SPEED_RATE`; before the first tick the reference and the PI registers are untouched. -/
def Obligations.DecimationCounterIsTheInvocationsModuloSpeedRate : Prop :=
  ∀ (α : Type) [Zero α] (N : NumOps α) (c : Cfg α) (calls : List (Dir × Count × Ports α)) (r r' : Regs α),
    c.ok N → c.mode = .speed → r.cs.state = .control → r.cs.cnt = 0 →
    r' = (operateAll N c (calls.map fun x => (.css x.1 x.2.1, x.2.2)) r).1 →
    r'.cs.cnt.toNat = calls.length % c.speedRate ∧ r'.cs.state = .control ∧
    (calls.length < c.speedRate → r'.pi = r.pi ∧ r'.cs.iRef = r.cs.iRef)

/-- R176, R177: the other half of the decimation, over any NUM: the invocation that completes a multiple of `SPEED_RATE`
runs the PI controller on this invocation's speed reference and `in_speed`, from the integrator of the invocation before. -/
def Obligations.EveryNthInvocationRunsThePiController : Prop :=
  ∀ (α : Type) [Zero α] (N : NumOps α) (c : Cfg α) (calls : List (Dir × Count × Ports α)) (dir : Dir) (dial : Count)
    (p : Ports α) (r r' r'' : Regs α) (ev : List Event),
    c.ok N → c.mode = .speed → r.cs.state = .control → r.cs.cnt = 0 →
    r' = (operateAll N c (calls.map fun x => (.css x.1 x.2.1, x.2.2)) r).1 →
    operate N c (.css dir dial) p r' = (r'', ev) →
    ((calls.length + 1) % c.speedRate = 0 →
      r''.pi = piUpdate N c (speedReference N c dial) p.inSpeed r'.pi.integ ∧ r''.cs.iRef = r''.pi.out) ∧
    ((calls.length + 1) % c.speedRate ≠ 0 → r''.pi = r'.pi ∧ r''.cs.iRef = r'.cs.iRef)

/-! ## FLT, and the whole machine -/

/-- R245, R267 (decision D20): `FLT` with a code other than None sends Demagnetize to A, B, C, D, latches the code if none is
recorded, goes to FAULT from any state, and changes nothing else. -/
def Obligations.FltEntersFaultFromAnyState : Prop :=
  ∀ (code : FaultCode) (s : State), code ≠ .none →
    exec (.flt code) s = .next { s with
      regs := { s.regs with cs := { s.regs.cs with
        fault := if s.regs.cs.fault = .none then code else s.regs.cs.fault
        state := .fault } }
      events := [⟨.a, .demagnetize⟩, ⟨.b, .demagnetize⟩, ⟨.c, .demagnetize⟩, ⟨.d, .demagnetize⟩] }

/-- R246: `FLT None` changes no register and sends nothing. -/
def Obligations.FltNoneDoesNothing : Prop :=
  ∀ s : State, exec (.flt .none) s = .next { s with events := [] }

/-- R192: the transitions of `cs.state` are the rule's table, row by row, and nothing else moves it; power-on reset gives
INIT. -/
def Obligations.FsmTransitionsAreTheTable : Prop :=
  State.reset.regs.cs.state = .init ∧ ∀ (i : Instr) (s : State), ∃ t, exec i s = .next t ∧
    t.regs.cs.state = match i with
      | .css _ _ => if s.regs.cs.state = .init then .control else s.regs.cs.state
      | .flt code => if code = .none then s.regs.cs.state else .fault
      | .rst => .init
      | _ => s.regs.cs.state

/-- R20, R22 to R25: each register is written only by the operations its table names. -/
def Obligations.RegistersAreWrittenOnlyByTheirOperations : Prop :=
  ∀ (i : Instr) (s t : State), exec i s = .next t →
    (t.regs.ps ≠ s.regs.ps → i = .psi ∨ (∃ raw, i = .psr raw) ∨ i = .rst) ∧
    ((t.regs.ps.rawCount ≠ s.regs.ps.rawCount ∨ t.regs.ps.compCount ≠ s.regs.ps.compCount) →
      i = .psi ∨ i = .rst ∨ ∃ raw, i = .psr raw ∧ rawLower raw = rawUpper raw) ∧
    (t.regs.hc ≠ s.regs.hc → (∃ prev, i = .hce prev) ∨ (∃ dir dial, i = .css dir dial) ∨ i = .rst) ∧
    (t.regs.pi ≠ s.regs.pi → i = .piu ∨ (∃ dir dial, i = .css dir dial) ∨ i = .rst) ∧
    (t.regs.cs.fault ≠ s.regs.cs.fault →
      (∃ code, i = .flt code) ∨ i = .rst ∨ ∃ dir dial, i = .css dir dial ∧ s.regs.cs.state = .init) ∧
    (t.regs.cs.state ≠ s.regs.cs.state →
      (∃ dir dial, i = .css dir dial) ∨ (∃ code, i = .flt code) ∨ i = .rst) ∧
    ({ t.regs.cs with state := s.regs.cs.state, fault := s.regs.cs.fault } ≠ s.regs.cs →
      (∃ dir dial, i = .css dir dial) ∨ i = .rst)

/-- R163, R189, R242, R245: driver events come only from `CSS` in CONTROL, four or five of them, and from `FLT` with a code
other than None, exactly four. -/
def Obligations.DriverEventsComeOnlyFromControlAndFaults : Prop :=
  ∀ (i : Instr) (s t : State), exec i s = .next t → t.events ≠ [] →
    ((∃ dir dial, i = .css dir dial) ∧ s.regs.cs.state = .control ∧
      (t.regs.cs.selValid = true ∧ t.events.length = 5 ∨ t.regs.cs.selValid = false ∧ t.events.length = 4)) ∨
    ((∃ code, i = .flt code ∧ code ≠ .none) ∧ t.events.length = 4)

/-- R269, R163 (X9 of the spec): FAULT is left only by `RST`: a step from FAULT to another state accepted a word that
decodes to it. -/
def Obligations.OnlyRstLeavesFault : Prop :=
  ∀ s t : State, s.regs.cs.state = .fault → step s = .next t → t.regs.cs.state ≠ .fault →
    s.wires.cmdValid = true ∧ decode s.wires.cmd = .ok .rst

/-- R269, R247 (a): from FAULT with a code latched, a run of any length in which the host presents no `RST` stays in FAULT,
keeps the first code and every other `cs` register, and its last operation sends nothing but Demagnetize. -/
def Obligations.FaultLastsUntilReinitialisation : Prop :=
  ∀ (k : Nat) (s t : State), s.regs.cs.state = .fault → s.regs.cs.fault ≠ .none → s.noReinit = true →
    Sys2Proof.core.run (k + 1) s = .next t →
    t.regs.cs = s.regs.cs ∧ ∀ e ∈ t.events, e.cmd = .demagnetize

/-- R268, R251 (derived in the spec), R245, R163: a fault taken between the `PSR` and the `CSS` of a control cycle: the `CSS`
sends nothing and changes nothing after the fault entry. -/
def Obligations.FaultBetweenReadAndSelectSilencesTheCycle : Prop :=
  ∀ (raw : RawWord) (code : FaultCode) (dir : Dir) (dial : Count) (s : State), code ≠ .none →
    ∃ t u v, exec (.psr raw) s = .next t ∧ exec (.flt code) t = .next u ∧ exec (.css dir dial) u = .next v ∧
      u.events.map Event.cmd = [.demagnetize, .demagnetize, .demagnetize, .demagnetize] ∧
      v.events = [] ∧ v.regs = u.regs ∧ v.regs.ps = t.regs.ps ∧ v.regs.cs.state = .fault

/-- R73 (derived in the spec): `RST`, `PSI`, `HCE`, `FLT` with a given code, and `CSS` in FAULT, performed twice in a row,
leave the registers the first one left. -/
def Obligations.RepeatingAnIdempotentOperationChangesNothing : Prop :=
  ∀ (i : Instr) (s : State),
    (match i with
      | .psr _ => False
      | .piu => False
      | .css _ _ => s.regs.cs.state = .fault
      | _ => True) →
    ∃ t u, exec i s = .next t ∧ exec i t = .next u ∧ u.regs = t.regs

/-- R250, R96 (decision D19): the two moves of `CYC`, presented one after the other, are `PSR raw` and then `CSS` on the
currents given and on the `ps.theta` and `ps.rpm` the `PSR` has just written. -/
def Obligations.CycFeedsTheSelectorFromTheSensor : Prop :=
  ∀ (s : State) (w m₁ m₂ : Wires Value) (rest : List (Wires Value)) (raw : RawWord) (dir : Dir) (dial : Count)
    (ia ib ic id : Value), cycMoves w raw dir dial ia ib ic id = [m₁, m₂] → s.wires = m₁ → s.host = m₂ :: rest →
    ∃ t u, exec (.psr raw) s = .next t ∧ Sys2Proof.core.run 2 s = .next u ∧
      (u.regs, u.events) = cssOp Config.num Config.cfg dir dial
        { inRef := w.inRef, inAct := w.inAct, inBeta := w.inBeta, inMeas := w.inMeas,
          inIA := ia, inIB := ib, inIC := ic, inID := id, inTheta := t.regs.ps.theta, inSpeed := t.regs.ps.rpm } t.regs

/-- R262: the FaultMonitor's contract about the environment, over any NUM: the code is that of the last phase in the order
A, B, C, D whose current is strictly above its threshold, and None when none is. -/
def Obligations.MonitorReportsTheLastPhaseOverItsThreshold : Prop :=
  ∀ (α : Type) (N : NumOps α) (t : Thresholds α) (ia ib ic id : α),
    (N.lt t.d id = true → faultMonitor N t ia ib ic id = .phaseDOvercurrent) ∧
    (N.lt t.d id = false → N.lt t.c ic = true → faultMonitor N t ia ib ic id = .phaseCOvercurrent) ∧
    (N.lt t.d id = false → N.lt t.c ic = false → N.lt t.b ib = true →
      faultMonitor N t ia ib ic id = .phaseBOvercurrent) ∧
    (N.lt t.d id = false → N.lt t.c ic = false → N.lt t.b ib = false → N.lt t.a ia = true →
      faultMonitor N t ia ib ic id = .phaseAOvercurrent) ∧
    (N.lt t.d id = false → N.lt t.c ic = false → N.lt t.b ib = false → N.lt t.a ia = false →
      faultMonitor N t ia ib ic id = .none)

/-! ## Invariants and runs -/

/-- The invariant holds at reset. -/
def Obligations.ResetMeetsTheInvariant : Prop := State.reset.Inv

/-- Every step keeps the invariant, from every state that meets it: FAULT exactly when a code is latched; the decimation
counter below `SPEED_RATE`; in INIT every `cs` register at its reset value; in current mode the counter and speed reference
0; a valid selection is some table entry's; the event list one of the three shapes the rules give. -/
def Obligations.EveryStepKeepsTheInvariant : Prop :=
  ∀ s t : State, s.Inv → step s = .next t → t.Inv

/-- R312, R91, R260: while the host presents no reserved word, no step is refused: a run of any length goes on. -/
def Obligations.LegalHostIsNeverRefused : Prop :=
  ∀ (s : State) (k : Nat), s.legalHost = true → SafeRun s k
end

