-- ==== Sys2Proof/Laws/Decode.lean ====
section
/-! SUPPORT. The codes and the fields of the command word: each code reads back as its member, each field is a quotient
and a remainder of the word, and what a decoded word looks like, once. -/

namespace Sys2Proof

@[simp] theorem Dir.ofCode_code (d : Dir) : Dir.ofCode d.code = d := by cases d <;> rfl

@[simp] theorem Switch.ofCode_code (s : Switch) : Switch.ofCode s.code = s := by cases s <;> rfl

@[simp] theorem FaultCode.ofCode_code (c : FaultCode) : FaultCode.ofCode c.code = some c := by cases c <;> rfl

theorem Phase.code_injective {p q : Phase} (h : p.code = q.code) : p = q := by
  cases p <;> cases q <;> first | rfl | exact absurd h (by decide)

theorem Cmd.code_injective {p q : Cmd} (h : p.code = q.code) : p = q := by
  cases p <;> cases q <;> first | rfl | exact absurd h (by decide)

theorem FsmState.code_injective {p q : FsmState} (h : p.code = q.code) : p = q := by
  cases p <;> cases q <;> first | rfl | exact absurd h (by decide)

/-- R92: a 3-bit code that names a member is that member's code. -/
theorem FaultCode.code_of_ofCode {c : BitVec 3} {code : FaultCode} (h : FaultCode.ofCode c = some code) :
    code.code = c := by
  have key : ∀ c : BitVec 3, ∀ code, FaultCode.ofCode c = some code → code.code = c := by
    intro c
    have : ∀ n : Fin 8, ∀ code, FaultCode.ofCode (BitVec.ofFin n) = some code → code.code = BitVec.ofFin n := by
      decide
    exact this c.toFin
  exact key c code h

theorem FaultCode.ofCode_eq_none {c : BitVec 3} : FaultCode.ofCode c = Option.none ↔ c.toNat = 7 := by
  have : ∀ n : Fin 8, FaultCode.ofCode (BitVec.ofFin n) = Option.none ↔ n.val = 7 := by decide
  exact this c.toFin

theorem opField_toNat (w : Word) : (opField w).toNat = w.toNat / 2 ^ 28 := by
  simp only [opField, BitVec.extractLsb'_toNat, Nat.shiftRight_eq_div_pow]
  have := w.isLt
  omega

theorem rawField_toNat (w : Word) : (rawField w).toNat = w.toNat % 2 ^ 24 := by
  simp [rawField]

theorem prevField_toNat (w : Word) : (prevField w).toNat = w.toNat % 2 := by
  simp [prevField]

theorem dirField_toNat (w : Word) : (dirField w).toNat = w.toNat / 2 ^ 12 % 2 := by
  simp [dirField, Nat.shiftRight_eq_div_pow]

theorem dialField_toNat (w : Word) : (dialField w).toNat = w.toNat % 2 ^ 12 := by
  simp [dialField]

theorem codeField_toNat (w : Word) : (codeField w).toNat = w.toNat % 8 := by
  simp [codeField]

theorem Switch.ofCode_eq (c : BitVec 1) : Switch.ofCode c = if c.toNat = 1 then .on else .off := by
  simp [Switch.ofCode, BitVec.toNat_eq]

theorem Dir.ofCode_eq (c : BitVec 1) : Dir.ofCode c = if c.toNat = 1 then .ccw else .cw := by
  simp [Dir.ofCode, BitVec.toNat_eq]

/-- The number of a concatenation. -/
theorem append_toNat {m n : Nat} (x : BitVec m) (y : BitVec n) : (x ++ y).toNat = x.toNat * 2 ^ n + y.toNat := by
  rw [BitVec.toNat_append, ← Nat.shiftLeft_add_eq_or_of_lt y.isLt, Nat.shiftLeft_eq]

/-- R95: the command word of each operation, as a number. -/
theorem encode_toNat (i : Instr) : (encode i).toNat = match i with
    | .rst => 1 * 2 ^ 28
    | .psi => 2 * 2 ^ 28
    | .psr raw => 3 * 2 ^ 28 + raw.toNat
    | .hce prev => 4 * 2 ^ 28 + prev.code.toNat
    | .piu => 5 * 2 ^ 28
    | .css dir dial => 6 * 2 ^ 28 + dir.code.toNat * 2 ^ 12 + dial.toNat
    | .flt code => 7 * 2 ^ 28 + code.code.toNat := by
  cases i <;> simp only [encode, append_toNat] <;> simp [Nat.add_assoc]

/-! ## What a word decodes to, by its `op` (R97) -/

theorem decode_op1 {w : Word} (h : (opField w).toNat = 1) : decode w = .ok .rst := by
  simp only [decode, h]

theorem decode_op2 {w : Word} (h : (opField w).toNat = 2) : decode w = .ok .psi := by
  simp only [decode, h]

theorem decode_op3 {w : Word} (h : (opField w).toNat = 3) : decode w = .ok (.psr (rawField w)) := by
  simp only [decode, h]

theorem decode_op4 {w : Word} (h : (opField w).toNat = 4) :
    decode w = .ok (.hce (Switch.ofCode (prevField w))) := by
  simp only [decode, h]

theorem decode_op5 {w : Word} (h : (opField w).toNat = 5) : decode w = .ok .piu := by
  simp only [decode, h]

theorem decode_op6 {w : Word} (h : (opField w).toNat = 6) :
    decode w = .ok (.css (Dir.ofCode (dirField w)) (dialField w)) := by
  simp only [decode, h]

theorem decode_op7 {w : Word} {code : FaultCode} (h : (opField w).toNat = 7)
    (hc : FaultCode.ofCode (codeField w) = some code) : decode w = .ok (.flt code) := by
  simp only [decode, h, hc]

theorem decode_op7_reserved {w : Word} (h : (opField w).toNat = 7) (hc : (codeField w).toNat = 7) :
    decode w = .error .reservedFaultCode := by
  simp only [decode, h, FaultCode.ofCode_eq_none.mpr hc]

theorem decode_reservedOp {w : Word} (h : (opField w).toNat = 0 ∨ 8 ≤ (opField w).toNat) :
    decode w = .error (.reservedOp (opField w)) := by
  unfold decode
  split <;> first | rfl | omega

/-- R97: everything a decoded word can be, with its `op`. -/
theorem decode_ok_cases {w : Word} {i : Instr} (h : decode w = .ok i) :
    ((opField w).toNat = 1 ∧ i = .rst) ∨ ((opField w).toNat = 2 ∧ i = .psi) ∨
    ((opField w).toNat = 3 ∧ i = .psr (rawField w)) ∨
    ((opField w).toNat = 4 ∧ i = .hce (Switch.ofCode (prevField w))) ∨
    ((opField w).toNat = 5 ∧ i = .piu) ∨
    ((opField w).toNat = 6 ∧ i = .css (Dir.ofCode (dirField w)) (dialField w)) ∨
    ((opField w).toNat = 7 ∧ ∃ code, FaultCode.ofCode (codeField w) = some code ∧ i = .flt code) := by
  unfold decode at h
  split at h
  case h_7 h7 =>
    split at h
    case h_1 code hc =>
      injection h with h
      exact .inr (.inr (.inr (.inr (.inr (.inr ⟨h7, code, hc, h.symm⟩)))))
    case h_2 => cases h
  case h_8 => cases h
  all_goals injection h with h; subst h; simp [*]

/-- R91, R92: everything a refused word can be. -/
theorem decode_error_cases {w : Word} {e : DecodeError} (h : decode w = .error e) :
    (((opField w).toNat = 0 ∨ 8 ≤ (opField w).toNat) ∧ e = .reservedOp (opField w)) ∨
    ((opField w).toNat = 7 ∧ (codeField w).toNat = 7 ∧ e = .reservedFaultCode) := by
  unfold decode at h
  split at h
  case h_7 h7 =>
    split at h
    case h_1 => cases h
    case h_2 hc =>
      injection h with h
      exact .inr ⟨h7, FaultCode.ofCode_eq_none.mp hc, h.symm⟩
  case h_8 h1 h2 h3 h4 h5 h6 h7 =>
    injection h with h
    refine .inl ⟨?_, h.symm⟩
    simp only [imp_false] at h1 h2 h3 h4 h5 h6 h7
    omega
  all_goals cases h

/-- R91, R92: the legal words are those the decoder accepts. -/
theorem decode_ok_of_legalWord {w : Word} (h : legalWord w = true) : ∃ i, decode w = .ok i := by
  cases hd : decode w with
  | ok i => exact ⟨i, rfl⟩
  | error e =>
    simp only [legalWord, Bool.and_eq_true, decide_eq_true_eq, Bool.not_eq_true', Bool.and_eq_false_iff,
      decide_eq_false_iff_not] at h
    rcases decode_error_cases hd with ⟨hop, -⟩ | ⟨hop, hc, -⟩
    · rw [opField_toNat] at hop
      omega
    · rw [opField_toNat] at hop
      rw [codeField_toNat] at hc
      omega

end Sys2Proof
end

