-- ==== Sys2Proof/Laws/State.lean ====
section
/-! SUPPORT. One lemma per field per update of State, and the reset registers, so that no proof unfolds a record update. -/

namespace Sys2Proof.Machine

variable {α : Type}

/-! ## Performing an operation -/

@[simp] theorem State.perform_regs (s : State) (op : Operation Value) :
    (s.perform op).regs = (op (samplePorts Config.cfg s.wires s.regs) s.regs).1 := rfl

@[simp] theorem State.perform_events (s : State) (op : Operation Value) :
    (s.perform op).events = (op (samplePorts Config.cfg s.wires s.regs) s.regs).2 := rfl

@[simp] theorem State.perform_wires (s : State) (op : Operation Value) : (s.perform op).wires = s.wires := rfl

@[simp] theorem State.perform_host (s : State) (op : Operation Value) : (s.perform op).host = s.host := rfl

/-! ## No command, and the host's next move -/

@[simp] theorem State.idle_regs (s : State) : s.idle.regs = s.regs := rfl

@[simp] theorem State.idle_wires (s : State) : s.idle.wires = s.wires := rfl

@[simp] theorem State.idle_host (s : State) : s.idle.host = s.host := rfl

@[simp] theorem State.idle_events (s : State) : s.idle.events = [] := rfl

@[simp] theorem State.advanceHost_regs (s : State) : s.advanceHost.regs = s.regs := by
  unfold State.advanceHost
  split <;> rfl

@[simp] theorem State.advanceHost_events (s : State) : s.advanceHost.events = s.events := by
  unfold State.advanceHost
  split <;> rfl

theorem State.advanceHost_of_nil {s : State} (h : s.host = []) :
    s.advanceHost = { s with wires := { s.wires with cmdValid := false } } := by
  simp [State.advanceHost, h]

theorem State.advanceHost_of_cons {s : State} {w : Wires Value} {rest : List (Wires Value)} (h : s.host = w :: rest) :
    s.advanceHost = { s with wires := w, host := rest } := by
  simp [State.advanceHost, h]

/-! ## Presenting a word -/

@[simp] theorem State.presentWord_regs (s : State) (w : Word) : (s.presentWord w).regs = s.regs := rfl

@[simp] theorem State.presentWord_host (s : State) (w : Word) : (s.presentWord w).host = s.host := rfl

@[simp] theorem State.presentWord_events (s : State) (w : Word) : (s.presentWord w).events = s.events := rfl

@[simp] theorem State.presentWord_cmd (s : State) (w : Word) : (s.presentWord w).wires.cmd = w := rfl

@[simp] theorem State.presentWord_fetch (s : State) (w : Word) : (s.presentWord w).fetch = some w := rfl

theorem State.fetch_eq_none {s : State} : s.fetch = none ↔ s.wires.cmdValid = false := by
  simp [State.fetch]

theorem State.fetch_eq_some {s : State} {w : Word} : s.fetch = some w ↔ s.wires.cmdValid = true ∧ s.wires.cmd = w := by
  simp [State.fetch]

/-! ## Reset -/

@[simp] theorem State.reset_regs : State.reset.regs = Regs.reset := rfl

@[simp] theorem State.reset_events : State.reset.events = [] := rfl

@[simp] theorem State.reset_host : State.reset.host = [] := rfl

@[simp] theorem State.reset_cmdValid : State.reset.wires.cmdValid = false := rfl

@[simp] theorem Regs.reset_ps [Zero α] : (Regs.reset : Regs α).ps = PsRegs.reset := rfl

@[simp] theorem Regs.reset_hc [Zero α] : (Regs.reset : Regs α).hc = HcRegs.reset := rfl

@[simp] theorem Regs.reset_pi [Zero α] : (Regs.reset : Regs α).pi = PiRegs.reset := rfl

@[simp] theorem Regs.reset_cs [Zero α] : (Regs.reset : Regs α).cs = CsRegs.reset := rfl

@[simp] theorem CsRegs.reset_state [Zero α] : (CsRegs.reset : CsRegs α).state = .init := rfl

@[simp] theorem CsRegs.reset_fault [Zero α] : (CsRegs.reset : CsRegs α).fault = .none := rfl

@[simp] theorem CsRegs.reset_cnt [Zero α] : (CsRegs.reset : CsRegs α).cnt = 0 := rfl

@[simp] theorem CsRegs.reset_speedRef [Zero α] : (CsRegs.reset : CsRegs α).speedRef = 0 := rfl

@[simp] theorem CsRegs.reset_selValid [Zero α] : (CsRegs.reset : CsRegs α).selValid = false := rfl

@[simp] theorem PiRegs.reset_integ [Zero α] : (PiRegs.reset : PiRegs α).integ = 0 := rfl

@[simp] theorem PiRegs.reset_out [Zero α] : (PiRegs.reset : PiRegs α).out = 0 := rfl

end Sys2Proof.Machine
end

