-- ==== Sys2Proof/Laws/Ops.lean ====
section
/-! SUPPORT. What each shared operation and each family operation can do, once: clamping, the event lists, the table walk,
the arms of CSS, and every instruction as one operation on the registers. -/

namespace Sys2Proof.Machine

variable {α : Type}

/-! ## clamp (R10) -/

/-- R218: a clamped value lies within ordered limits. -/
theorem clamp_within {N : NumOps α} (hN : TotalOrder N) {lo hi : α} (h : N.le lo hi = true) (x : α) :
    N.le lo (clamp N x lo hi) = true ∧ N.le (clamp N x lo hi) hi = true := by
  have refl : ∀ y, N.le y y = true := fun y => by simp [hN.le_iff, hN.irrefl]
  unfold clamp
  split
  · exact ⟨h, refl _⟩
  · split
    · exact ⟨refl _, h⟩
    · simp_all [hN.le_iff]

theorem clamp_real {x lo hi : ℝ} (h : lo ≤ hi) : clamp realNum x lo hi = max lo (min x hi) := by
  simp only [clamp, realNum, decide_eq_true_eq]
  split
  · rw [min_eq_right (by linarith), max_eq_right h]
  · split
    · rw [max_eq_left (min_le_of_left_le (by linarith))]
    · rw [min_eq_left (by linarith), max_eq_right (by linarith)]

/-! ## wrap (R10, R171, R180) -/

/-- Everything R10 says of a wrapped value, at the period `CTRL_THETA` of a well-formed configuration. -/
theorem floorMod_ctrlTheta [Zero α] {N : NumOps α} {c : Cfg α} (hN : N.FlooredModulo) (hc : c.ok N) (x : α) :
    InControlPeriod N c (N.floorMod x c.ctrlTheta) ∧ N.CongruentMod c.ctrlTheta x (N.floorMod x c.ctrlTheta) := by
  obtain ⟨lower, upper, multiple⟩ := hN x c.ctrlTheta hc.2.1
  exact ⟨⟨lower, upper⟩, multiple⟩

/-- R171. -/
theorem wrappedTheta_inControlPeriod [Zero α] {N : NumOps α} {c : Cfg α} (hN : N.FlooredModulo) (hc : c.ok N) (x : α) :
    InControlPeriod N c (wrappedTheta N c x) := (floorMod_ctrlTheta hN hc x).1

/-- R180, negative offsets included. -/
theorem offsetTheta_inControlPeriod [Zero α] {N : NumOps α} {c : Cfg α} (hN : N.FlooredModulo) (hc : c.ok N) (dir : Dir)
    (x : α) : InControlPeriod N c (offsetTheta N c dir x) := (floorMod_ctrlTheta hN hc _).1

/-! ## Event lists (R185, R245) -/

theorem demagnetizeOthers_length (q : Phase) : (demagnetizeOthers q).length = 3 := by
  cases q <;> rfl

/-- R185: the other three phases, and only those, are demagnetized. -/
theorem mem_demagnetizeOthers {q : Phase} {e : Event} :
    e ∈ demagnetizeOthers q ↔ e.phase ≠ q ∧ e.cmd = .demagnetize := by
  rcases e with ⟨p, c⟩
  cases q <;> cases p <;> cases c <;> decide

theorem driveCmd_ne_demagnetize (sw : Switch) : driveCmd sw ≠ .demagnetize := by
  cases sw <;> decide

/-! ## The table walk (R181, R183) -/

theorem table_toList (v : Vector (TableEntry α) 4) : v.toList = [v[0], v[1], v[2], v[3]] := by
  rcases v with ⟨⟨l⟩, h⟩
  match l, h with
  | [_, _, _, _], _ => rfl

/-- The first of four that meets a test. -/
theorem find?_four {β : Type} {q : β → Bool} {x : Fin 4 → β} {e : β} :
    [x 0, x 1, x 2, x 3].find? q = some e ↔
      ∃ k : Fin 4, e = x k ∧ q (x k) = true ∧ ∀ j : Fin 4, j < k → q (x j) = false := by
  constructor
  · intro h
    simp only [List.find?_cons, List.find?_nil] at h
    split at h
    · exact ⟨0, by simpa using h.symm, ‹_›, by simp⟩
    split at h
    · exact ⟨1, by simpa using h.symm, ‹_›, by simp [*]⟩
    split at h
    · exact ⟨2, by simpa using h.symm, ‹_›, by simp [Fin.forall_fin_succ, *]⟩
    split at h
    · exact ⟨3, by simpa using h.symm, ‹_›, by simp [Fin.forall_fin_succ, *]⟩
    · cases h
  · rintro ⟨k, rfl, hk, hj⟩
    fin_cases k
    · simp_all
    · have := hj 0 (by decide); simp_all
    · have := hj 0 (by decide); have := hj 1 (by decide); simp_all
    · have := hj 0 (by decide); have := hj 1 (by decide); have := hj 2 (by decide); simp_all

/-- R181, R182: the walk answers entry `k`'s contents exactly when `k` is the first to match. -/
theorem tableWalk_eq_some {N : NumOps α} {c : Cfg α} {dir : Dir} {t : α} {e : TableEntry α} :
    tableWalk N c dir t = some e ↔
      ∃ k : Fin 4, e = (c.table dir)[k] ∧ thresholdMatch N dir t (c.table dir)[k].off = true ∧
        ∀ j : Fin 4, j < k → thresholdMatch N dir t (c.table dir)[j].off = false := by
  rw [tableWalk, table_toList]
  exact find?_four (x := fun k => (c.table dir)[k])
/-- R183: no entry matches. -/
theorem tableWalk_eq_none {N : NumOps α} {c : Cfg α} {dir : Dir} {t : α} :
    tableWalk N c dir t = none ↔ ∀ k : Fin 4, thresholdMatch N dir t (c.table dir)[k].off = false := by
  simp [tableWalk, table_toList, Fin.forall_fin_succ]

/-- R181: what the walk finds is an entry of the direction's table. -/
theorem mem_of_tableWalk {N : NumOps α} {c : Cfg α} {dir : Dir} {t : α} {e : TableEntry α}
    (h : tableWalk N c dir t = some e) : e ∈ (c.table dir).toList :=
  List.mem_of_find?_eq_some h

/-! ## Step (c) (R172 to R178): what it leaves alone, and the counter -/

@[simp] theorem referenceStep_ps (N : NumOps α) (c : Cfg α) (dial : Count) (p : Ports α) (r : Regs α) :
    (referenceStep N c dial p r).ps = r.ps := by
  unfold referenceStep speedStep currentStep
  split
  · simp only; split <;> rfl
  · rfl

@[simp] theorem referenceStep_hc (N : NumOps α) (c : Cfg α) (dial : Count) (p : Ports α) (r : Regs α) :
    (referenceStep N c dial p r).hc = r.hc := by
  unfold referenceStep speedStep currentStep
  split
  · simp only; split <;> rfl
  · rfl

/-- Step (c) writes of `cs` only the counter and the two references. -/
theorem referenceStep_cs (N : NumOps α) (c : Cfg α) (dial : Count) (p : Ports α) (r : Regs α) :
    ∃ cnt iRef speedRef, (referenceStep N c dial p r).cs =
      { r.cs with cnt := cnt, iRef := iRef, speedRef := speedRef } := by
  unfold referenceStep speedStep currentStep
  split
  · simp only; split <;> exact ⟨_, _, _, rfl⟩
  · exact ⟨_, _, _, rfl⟩

theorem referenceStep_current {c : Cfg α} (h : c.mode = .current) (N : NumOps α) (dial : Count) (p : Ports α)
    (r : Regs α) : referenceStep N c dial p r = currentStep N c dial r := by
  simp [referenceStep, h]

theorem referenceStep_tick {c : Cfg α} (h : c.mode = .speed) (N : NumOps α) (dial : Count) (p : Ports α) (r : Regs α)
    (hn : c.speedRate ≤ r.cs.cnt.toNat + 1) :
    referenceStep N c dial p r =
      { r with
        pi := piUpdate N c (speedReference N c dial) p.inSpeed r.pi.integ
        cs := { r.cs with
          speedRef := speedReference N c dial
          cnt := 0
          iRef := (piUpdate N c (speedReference N c dial) p.inSpeed r.pi.integ).out } } := by
  simp [referenceStep, h, speedStep, tickDue, hn]

theorem referenceStep_noTick {c : Cfg α} (h : c.mode = .speed) (N : NumOps α) (dial : Count) (p : Ports α) (r : Regs α)
    (hn : r.cs.cnt.toNat + 1 < c.speedRate) :
    referenceStep N c dial p r =
      { r with cs := { r.cs with
          speedRef := speedReference N c dial
          cnt := BitVec.ofNat 16 (r.cs.cnt.toNat + 1) } } := by
  have : ¬ c.speedRate ≤ r.cs.cnt.toNat + 1 := by omega
  simp [referenceStep, h, speedStep, tickDue, this]

/-- R176: below `SPEED_RATE`, which fits 16 bits, the counter counts without wrap. -/
theorem count_toNat {n rate : Nat} (h : n < rate) (hr : rate < 2 ^ 16) : (BitVec.ofNat 16 n).toNat = n := by
  rw [BitVec.toNat_ofNat]
  exact Nat.mod_eq_of_lt (by omega)

/-- R176: step (c) keeps the counter below `SPEED_RATE`. -/
theorem referenceStep_cnt_lt {c : Cfg α} (N : NumOps α) (dial : Count) (p : Ports α) {r : Regs α}
    (h : r.cs.cnt.toNat < c.speedRate) (hr : c.speedRate < 2 ^ 16) :
    (referenceStep N c dial p r).cs.cnt.toNat < c.speedRate := by
  cases hm : c.mode with
  | current => rw [referenceStep_current hm]; exact h
  | speed =>
    by_cases hn : c.speedRate ≤ r.cs.cnt.toNat + 1
    · rw [referenceStep_tick hm _ _ _ _ hn]; simpa using by omega
    · rw [referenceStep_noTick hm _ _ _ _ (by omega)]
      simp only
      rw [count_toNat (by omega) hr]
      omega

/-! ## Step (e) and the CONTROL arm -/

/-- The registers CONTROL hands to step (e). -/
def controlBefore (N : NumOps α) (c : Cfg α) (dial : Count) (p : Ports α) (tCtl tC : α) (r : Regs α) : Regs α :=
  { referenceStep N c dial p r with
    cs := { (referenceStep N c dial p r).cs with thetaCtl := tCtl, thetaC := tC } }

/-- R164: everything the CONTROL arm can do: no entry matched, or the first matching entry is driven. -/
theorem cssControl_cases (N : NumOps α) (c : Cfg α) (dir : Dir) (dial : Count) (p : Ports α) (r : Regs α) :
    let tCtl := wrappedTheta N c p.inTheta
    let tC := offsetTheta N c dir tCtl
    (tableWalk N c dir tC = none ∧
      cssControl N c dir dial p r = driveNone (controlBefore N c dial p tCtl tC r)) ∨
    ∃ e, tableWalk N c dir tC = some e ∧
      cssControl N c dir dial p r = driveEntry N c e p (controlBefore N c dial p tCtl tC r) := by
  simp only [cssControl, driveStep, controlBefore]
  cases h : tableWalk N c dir (offsetTheta N c dir (wrappedTheta N c p.inTheta)) with
  | none => exact .inl ⟨rfl, rfl⟩
  | some e => exact .inr ⟨e, rfl, rfl⟩

theorem cssOp_init [Zero α] (N : NumOps α) (c : Cfg α) (dir : Dir) (dial : Count) (p : Ports α) {r : Regs α}
    (h : r.cs.state = .init) : cssOp N c dir dial p r = cssInit r := by
  simp [cssOp, h]

theorem cssOp_control [Zero α] (N : NumOps α) (c : Cfg α) (dir : Dir) (dial : Count) (p : Ports α) {r : Regs α}
    (h : r.cs.state = .control) : cssOp N c dir dial p r = cssControl N c dir dial p r := by
  simp [cssOp, h]

theorem cssOp_fault [Zero α] (N : NumOps α) (c : Cfg α) (dir : Dir) (dial : Count) (p : Ports α) {r : Regs α}
    (h : r.cs.state = .fault) : cssOp N c dir dial p r = (r, []) := by
  simp [cssOp, h]

/-! ## Every instruction is one operation -/

/-- R66: what `exec` answers, for every instruction: the operation performed on the state. -/
theorem exec_eq (i : Instr) (s : State) :
    exec i s = .next (s.perform (operate Config.num Config.cfg i)) := by
  cases i <;> rfl

end Sys2Proof.Machine
end

