-- ==== Sys2Proof/Laws/PerInstr.lean ====
section
/-! SUPPORT. Statements about every instruction as syntax, one lemma per constructor. The family `OpField` (R81, R83): the
encoded word carries the operation's code in bits 31:28. -/

namespace Sys2Proof.Laws.OpField

/-- R83: the operation code of each instruction. -/
def opOf : Instr → Nat
  | .rst => 1
  | .psi => 2
  | .psr _ => 3
  | .hce _ => 4
  | .piu => 5
  | .css _ _ => 6
  | .flt _ => 7

/-- R81, R83: bits 31:28 of the encoded word are the operation's code. -/
def Statement (i : Instr) : Prop := (opField (encode i)).toNat = opOf i

theorem rst : Statement .rst := by
  show (opField (encode .rst)).toNat = 1
  decide

theorem psi : Statement .psi := by
  show (opField (encode .psi)).toNat = 2
  decide

theorem psr (raw : RawWord) : Statement (.psr raw) := by
  show (opField (encode (.psr raw))).toNat = 3
  have := raw.isLt
  simp only [opField_toNat, encode_toNat]
  omega

theorem hce (prev : Switch) : Statement (.hce prev) := by
  show (opField (encode (.hce prev))).toNat = 4
  have := prev.code.isLt
  simp only [opField_toNat, encode_toNat]
  omega

theorem piu : Statement .piu := by
  show (opField (encode .piu)).toNat = 5
  decide

theorem css (dir : Dir) (dial : Count) : Statement (.css dir dial) := by
  show (opField (encode (.css dir dial))).toNat = 6
  have := dir.code.isLt
  have := dial.isLt
  simp only [opField_toNat, encode_toNat]
  omega

theorem flt (code : FaultCode) : Statement (.flt code) := by
  show (opField (encode (.flt code))).toNat = 7
  have := code.code.isLt
  simp only [opField_toNat, encode_toNat]
  omega

end Sys2Proof.Laws.OpField
end

