-- ==== Sys2Proof/Laws/Step.lean ====
section
/-! SUPPORT. Everything a step can do, once. -/

namespace Sys2Proof.Machine

/-- R80, R91, R97: a step that answers a next state had no word presented, or performed the operation of the word. -/
theorem step_next_cases {s t : State} (h : step s = .next t) :
    (s.wires.cmdValid = false ∧ t = s.idle.advanceHost) ∨
    ∃ i, s.wires.cmdValid = true ∧ decode s.wires.cmd = .ok i ∧
      t = (s.perform (operate Config.num Config.cfg i)).advanceHost := by
  unfold step at h
  split at h
  case h_1 hf =>
    injection h with h
    exact .inl ⟨State.fetch_eq_none.mp hf, h.symm⟩
  case h_2 w hf =>
    obtain ⟨hv, rfl⟩ := State.fetch_eq_some.mp hf
    split at h
    case h_1 i hd =>
      rw [exec_eq] at h
      injection h with h
      exact .inr ⟨i, hv, hd, h.symm⟩
    case h_2 => cases h

theorem step_of_idle {s : State} (h : s.wires.cmdValid = false) : step s = .next s.idle.advanceHost := by
  simp [step, State.fetch_eq_none.mpr h]

theorem step_of_decode {s : State} {i : Instr} (h : s.wires.cmdValid = true) (hd : decode s.wires.cmd = .ok i) :
    step s = .next (s.perform (operate Config.num Config.cfg i)).advanceHost := by
  simp [step, State.fetch_eq_some.mpr ⟨h, rfl⟩, hd, exec_eq, afterExec]

theorem step_of_error {s : State} {e : DecodeError} (h : s.wires.cmdValid = true) (hd : decode s.wires.cmd = .error e) :
    step s = .refused (refusalOf e) := by
  simp [step, State.fetch_eq_some.mpr ⟨h, rfl⟩, hd]

/-- A run is its first step and then the run of one step less. -/
theorem run_succ (k : Nat) (s : Sys2Proof.core.State) : Sys2Proof.core.run (k + 1) s =
    match Sys2Proof.core.step s with
    | .next t => Sys2Proof.core.run k t
    | .fault r => .fault r
    | .refused r => .refused r := by
  rw [Host.Core.run]
  cases Sys2Proof.core.step s <;> rfl

/-- A run of one step more is a step and then the run. -/
theorem run_succ_next {k : Nat} {s t : State} (h : step s = .next t) :
    Sys2Proof.core.run (k + 1) s = Sys2Proof.core.run k t := by
  have e := run_succ k s
  rw [show Sys2Proof.core.step s = .next t from h] at e
  exact e

/-- A run that ends in a next state made every one of its steps. -/
theorem run_succ_cases {k : Nat} {s t : State} (h : Sys2Proof.core.run (k + 1) s = .next t) :
    ∃ u, step s = .next u ∧ Sys2Proof.core.run k u = .next t := by
  have e := (run_succ k s).symm.trans h
  cases hs : step s with
  | next u =>
    rw [show Sys2Proof.core.step s = .next u from hs] at e
    exact ⟨u, rfl, e⟩
  | fault r =>
    rw [show Sys2Proof.core.step s = .fault r from hs] at e
    cases e
  | refused r =>
    rw [show Sys2Proof.core.step s = .refused r from hs] at e
    cases e

end Sys2Proof.Machine
end

