-- ==== Sys2Proof/Tests/Slice0.lean ====
section
/-! SUPPORT. Tests: words written out from the encoding tables, ill-formed terms the checks refuse, vectors of
spec/95_test_vectors.md (worked there by hand from the rules), and for each statement with hypotheses a witness that meets
them. Numeric vectors are evaluated over the rationals with the reference configuration `CFG0`. -/

namespace Sys2Proof.Tests

open Sys2Proof Sys2Proof.Machine

/-! ## Helpers -/

/-- Operand ports with every level 0. -/
def quiet : Ports Rat := ⟨0, 0, 0, 0, 0, 0, 0, 0, 0, 0⟩

/-- The registers after one operation over the rationals. -/
def after (c : Cfg Rat) (i : Instr) (p : Ports Rat) (r : Regs Rat) : Regs Rat := (operate NumOps.rational c i p r).1

/-- The events of one operation over the rationals. -/
def eventsOf (c : Cfg Rat) (i : Instr) (p : Ports Rat) (r : Regs Rat) : List Event := (operate NumOps.rational c i p r).2

/-- "in CONTROL" (spec/95 part 0): reset followed by the INIT invocation. -/
def inControl : Regs Rat := { Regs.reset with cs := { (CsRegs.reset : CsRegs Rat) with state := .control } }

/-- CONTROL with a decision, a reference and a phase recorded (start of vector F2). -/
def running : Regs Rat := { inControl with cs := { inControl.cs with active := .b, iRef := 10, sw := .on } }

/-- FAULT with code 3 (start of vector S32). -/
def faulted : Regs Rat := { running with cs := { running.cs with state := .fault, fault := .phaseAOvercurrent } }

/-- The machine's state with given registers and nothing presented. -/
def stateWith (r : Regs Rat) : State := { State.reset with regs := r }

/-- Speed mode of vectors S29 and S30. -/
def cfgSpeed : Cfg Rat := { Cfg.cfg0 with mode := .speed, speedRate := 3, minSpeed := 500 }

/-- `CFG0` over the reals. -/
noncomputable def cfgReal : Cfg ℝ where
  alignOffset := 0
  dt := 1 / 20000
  kf := 1 / 4
  hystBand := 1 / 2
  kp := 1
  ki := 0
  kc := 0
  outMin := 0
  outMax := 10
  mode := .current
  speedRate := 1
  minSpeed := 0
  maxSpeed := 3000
  maxCurrentRef := 10
  ctrlTheta := 60
  thetaOffsetCw := 0
  thetaOffsetCcw := 0
  tableCw := #v[⟨0, 17, .a, .b⟩, ⟨17, 34, .b, .c⟩, ⟨34, 45, .c, .d⟩, ⟨45, 60, .d, .a⟩]
  tableCcw := #v[⟨60, 45, .d, .c⟩, ⟨45, 34, .c, .b⟩, ⟨34, 17, .b, .a⟩, ⟨17, 0, .a, .d⟩]
  speedFb := .rpm

/-! ## Decoding: words written out bit by bit from R82 (vectors E1 to E29) -/

theorem test_decode_rst : decode 0b00011111111111111111111111111111 = .ok .rst := by decide

theorem test_decode_psi : decode 0b00101010101111001101111011110000 = .ok .psi := by decide

theorem test_decode_psr_accepted : decode 0b00110000010000000000010000000000 = .ok (.psr 0x400400) := by decide

theorem test_decode_psr_ignored : decode 0b00111111010000000001010000000010 = .ok (.psr 0x401402) := by decide

theorem test_decode_hce_on : decode 0b01000000000000000000000000000001 = .ok (.hce .on) := by decide

theorem test_decode_hce_off : decode 0b01001111111111111111111111111110 = .ok (.hce .off) := by decide

theorem test_decode_piu : decode 0b01010000000000000000000000000000 = .ok .piu := by decide

theorem test_decode_css_ccw : decode 0b01100000000000000001010101010101 = .ok (.css .ccw 1365) := by decide

theorem test_decode_css_cw : decode 0b01101111111111111110100000000000 = .ok (.css .cw 2048) := by decide

theorem test_decode_flt_none : decode 0b01110000000000000000000000000000 = .ok (.flt .none) := by decide

theorem test_decode_flt_codes :
    (List.range 7).map (fun n => decode (BitVec.ofNat 32 (0x70000000 + n))) =
      [.ok (.flt .none), .ok (.flt .overvoltageOvercurrentHW), .ok (.flt .overcurrentHW),
       .ok (.flt .phaseAOvercurrent), .ok (.flt .phaseBOvercurrent), .ok (.flt .phaseCOvercurrent),
       .ok (.flt .phaseDOvercurrent)] := by decide

theorem test_decode_flt_reserved : decode 0b01111111111111111111111111111111 = .error .reservedFaultCode := by decide

theorem test_decode_op0 : decode 0b00001111111111111111111111111111 = .error (.reservedOp 0) := by decide

theorem test_decode_op8 : decode 0b10000000000000000000000000000000 = .error (.reservedOp 8) := by decide

/-- Encode after decode (spec/95 part 2.1): E7, E11, E17, E22. -/
theorem test_reencode :
    encode (.psr 0x400400) = 0x30400400 ∧ encode (.hce .off) = 0x40000000 ∧ encode (.css .cw 2048) = 0x60000800 ∧
      encode (.css .ccw 4095) = 0x60001FFF ∧ encode (.flt .phaseAOvercurrent) = 0x70000003 := by decide

/-- R90: the codes on the status and driver ports. -/
theorem test_codes :
    [Phase.a, .b, .c, .d].map Phase.code = [0, 1, 2, 3] ∧
      [Cmd.demagnetize, .magnetize, .freewheel, .chargeBootstrapCapacitor].map Cmd.code = [0, 1, 2, 3] ∧
      [FsmState.init, .control, .fault].map FsmState.code = [0, 1, 2] ∧
      [Mode.speed, .current].map Mode.code = [0, 1] := by decide

/-- The host's form of a table word reaches the decoder and the fetch. -/
theorem test_tableWord :
    decodeTableWord 32 0x60001555 = some (.css .ccw 1365) ∧ decodeTableWord 32 0x00000000 = none ∧
      (State.reset.withFetchWord 32 0x50000000).fetch = some 0x50000000 := by decide

/-! ## Ill-formed terms: each check refuses one -/

theorem test_legalWord_refuses :
    [0x00000000#32, 0x0FFFFFFF#32, 0x80000000#32, 0xFFFFFFFF#32, 0x70000007#32, 0x7FFFFFFF#32].map legalWord =
      [false, false, false, false, false, false] := by decide

theorem test_legalWord_accepts :
    [0x10000000#32, 0x30401402#32, 0x6FFFE800#32, 0x70000006#32].map legalWord = [true, true, true, true] := by decide

theorem test_wires_refuse : ({ (Wires.idle : Wires Rat) with cmdValid := true } : Wires Rat).legal = false := by
  decide +kernel

theorem test_config_refuses_dt : ¬ ({ Cfg.cfg0 with dt := 0 } : Cfg Rat).ok NumOps.rational := by decide +kernel

theorem test_config_refuses_ctrlTheta : ¬ ({ Cfg.cfg0 with ctrlTheta := 0 } : Cfg Rat).ok NumOps.rational := by
  decide +kernel

theorem test_config_refuses_limits : ¬ ({ Cfg.cfg0 with outMin := 11 } : Cfg Rat).ok NumOps.rational := by
  decide +kernel

theorem test_config_refuses_rate0 : ¬ ({ Cfg.cfg0 with speedRate := 0 } : Cfg Rat).ok NumOps.rational := by
  decide +kernel

theorem test_config_refuses_rate65536 : ¬ ({ Cfg.cfg0 with speedRate := 65536 } : Cfg Rat).ok NumOps.rational := by
  decide +kernel

theorem test_config_refuses_offset : ¬ ({ Cfg.cfg0 with alignOffset := 4096 } : Cfg Rat).ok NumOps.rational := by
  decide +kernel

theorem test_config_accepts : Cfg.cfg0.ok NumOps.rational ∧ cfgSpeed.ok NumOps.rational := by decide +kernel

theorem test_table_checks :
    [Dir.cw, .ccw].map (Cfg.cfg0.tableOrdered NumOps.rational) = [true, true] ∧
      [Dir.cw, .ccw].map (Cfg.cfg0.tableCovers NumOps.rational) = [true, true] ∧
      ({ Cfg.cfg0 with ctrlTheta := 90 } : Cfg Rat).tableCovers NumOps.rational .cw = false ∧
      ({ Cfg.cfg0 with tableCw := Cfg.cfg0.tableCcw } : Cfg Rat).tableOrdered NumOps.rational .cw = false := by
  decide +kernel

/-! ## Vectors of spec/95_test_vectors.md -/

/-- T1, T11: an accepted word and one whose halves differ in one bit. -/
theorem test_psr_counts :
    (after Cfg.cfg0 (.psr 0x400400) quiet Regs.reset).ps.compCount = 1024 ∧
      (after Cfg.cfg0 (.psr 0x401400) quiet Regs.reset).ps.compCount = 0 := by decide +kernel

/-- T10: the alignment offset wraps modulo 4096; the raw count holds the field. -/
theorem test_psr_offset :
    (after { Cfg.cfg0 with alignOffset := 200 } (.psr 0xFA0FA0) quiet Regs.reset).ps.rawCount = 4000 ∧
      (after { Cfg.cfg0 with alignOffset := 200 } (.psr 0xFA0FA0) quiet Regs.reset).ps.compCount = 104 := by
  decide +kernel

/-- T16: `PSI` zeroes the sensor registers. -/
theorem test_psi : (after Cfg.cfg0 .psi quiet (after Cfg.cfg0 (.psr 0x400400) quiet Regs.reset)) = Regs.reset := by
  decide +kernel

/-- H1, H6: off above, on at the lower limit. -/
theorem test_hce_limits :
    (after Cfg.cfg0 (.hce .on) { quiet with inRef := 1, inAct := 23 / 20, inBeta := 1 / 10 } Regs.reset).hc =
        { upper := 11 / 10, lower := 9 / 10, out := .off } ∧
      (after Cfg.cfg0 (.hce .off) { quiet with inRef := 1, inAct := 9 / 10, inBeta := 1 / 10 } Regs.reset).hc.out = .on := by
  decide +kernel

/-- H7, H10: zero and negative band: the upper test comes first. -/
theorem test_hce_priority :
    (after Cfg.cfg0 (.hce .on) { quiet with inRef := 2, inAct := 2 } Regs.reset).hc.out = .off ∧
      (after Cfg.cfg0 (.hce .off) { quiet with inRef := 2, inAct := 2, inBeta := -1 / 2 } Regs.reset).hc =
        { upper := 3 / 2, lower := 5 / 2, out := .off } := by decide +kernel

/-- V1, V2: one update without and one with the output clamped. -/
theorem test_piu_run :
    (after Cfg.cfg0 .piu { quiet with inRef := 100, inMeas := 96 } Regs.reset).pi = { integ := 1, out := 3 } ∧
      (after Cfg.cfg0 .piu { quiet with inRef := 100, inMeas := 60 }
        (after Cfg.cfg0 .piu { quiet with inRef := 100, inMeas := 96 } Regs.reset)).pi = { integ := 5, out := 10 } := by
  decide +kernel

/-- V4, V12: clamped at the lower limit; exactly at the upper limit is not clamped. -/
theorem test_piu_corners :
    (after Cfg.cfg0 .piu { quiet with inRef := 100, inMeas := 108 }
        { (Regs.reset : Regs Rat) with pi := { integ := 5, out := 10 } }).pi = { integ := 13 / 4, out := 0 } ∧
      (after Cfg.cfg0 .piu { quiet with inRef := 8 / 3 }
        { (Regs.reset : Regs Rat) with pi := { integ := 8, out := 0 } }).pi = { integ := 26 / 3, out := 10 } := by
  decide +kernel

/-- S2, P2 step 3: CW at 100 degrees wraps to 40, entry 2; the dial maps to 2; the comparator turns on. -/
theorem test_css_cw :
    eventsOf Cfg.cfg0 (.css .cw 819) { quiet with inIA := 1 / 5, inIB := 1, inTheta := 100 } inControl =
        [⟨.a, .demagnetize⟩, ⟨.b, .demagnetize⟩, ⟨.d, .demagnetize⟩, ⟨.c, .magnetize⟩, ⟨.d, .chargeBootstrapCapacitor⟩] ∧
      after Cfg.cfg0 (.css .cw 819) { quiet with inIA := 1 / 5, inIB := 1, inTheta := 100 } inControl =
        { inControl with
          hc := { upper := 5 / 2, lower := 3 / 2, out := .on }
          cs := { inControl.cs with
            iRef := 2, sw := .on, thetaCtl := 40, thetaC := 40, selValid := true, active := .c, boot := .d } } := by
  decide +kernel

/-- S11, S20: a negative angle and a negative offset re-wrap upward into the period (R10, R171, R180). -/
theorem test_css_wrapsNegative :
    (after Cfg.cfg0 (.css .cw 0) { quiet with inTheta := -10 } inControl).cs.thetaCtl = 50 ∧
      (after { Cfg.cfg0 with thetaOffsetCw := -15 } (.css .cw 0) { quiet with inTheta := 10 } inControl).cs.thetaC = 55 := by
  decide +kernel

/-- S7, S21: no entry matches; an offset that re-wraps, counter-clockwise. -/
theorem test_css_walk :
    (operate NumOps.rational { Cfg.cfg0 with ctrlTheta := 90 } (.css .cw 0) { quiet with inTheta := 61 } inControl) =
        ({ inControl with cs := { inControl.cs with thetaCtl := 61, thetaC := 61 } }, demagnetizeAll) ∧
      eventsOf { Cfg.cfg0 with thetaOffsetCcw := 25 } (.css .ccw 0) { quiet with inTheta := 50 } inControl =
        [⟨.b, .demagnetize⟩, ⟨.c, .demagnetize⟩, ⟨.d, .demagnetize⟩, ⟨.a, .freewheel⟩, ⟨.d, .chargeBootstrapCapacitor⟩] := by
  decide +kernel

/-- S30, invocations 2 and 3: no tick, then a tick. -/
theorem test_css_decimation :
    let p : Ports Rat := { quiet with inTheta := 5, inSpeed := 2900 }
    let r := after cfgSpeed (.css .cw 4095) p (after cfgSpeed (.css .cw 4095) p inControl)
    (r.cs.cnt, r.cs.iRef, r.pi.out) = (2, 0, 0) ∧
      ((after cfgSpeed (.css .cw 4095) p r).cs.cnt, (after cfgSpeed (.css .cw 4095) p r).cs.iRef,
        (after cfgSpeed (.css .cw 4095) p r).pi) = (0, 10, { integ := 0, out := 10 }) := by decide +kernel

/-- S31: the INIT arm ignores operands and ports and zeroes `cs`, `pi` and `hc`. -/
theorem test_css_init :
    operate NumOps.rational Cfg.cfg0 (.css .ccw 4095) { quiet with inIA := 9, inTheta := 40, inSpeed := 7 }
      { (Regs.reset : Regs Rat) with pi := { integ := 1, out := 3 }, hc := { upper := 11 / 10, lower := 9 / 10, out := .on } } =
      (inControl, []) := by decide +kernel

/-- F2, F3: fault entry latches the first code and keeps the rest. -/
theorem test_flt :
    operate NumOps.rational Cfg.cfg0 (.flt .phaseAOvercurrent) quiet running = (faulted, demagnetizeAll) ∧
      operate NumOps.rational Cfg.cfg0 (.flt .phaseCOvercurrent) quiet faulted = (faulted, demagnetizeAll) := by
  decide +kernel

/-- F1: `RST` from FAULT. -/
theorem test_rst : operate NumOps.rational Cfg.cfg0 .rst quiet faulted = (Regs.reset, []) := by decide +kernel

/-! ## Kinds of NUM: each premise about a NUM or a configuration is met -/

theorem rational_totalOrder : TotalOrder NumOps.rational where
  irrefl x := by simp [NumOps.rational]
  trans x y z h h' := by
    simp only [NumOps.rational, decide_eq_true_eq] at *
    exact h.trans h'
  total x y := by simpa [NumOps.rational] using lt_trichotomy x y
  le_iff x y := by
    by_cases h : x ≤ y
    · simp [NumOps.rational, h, not_lt.mpr h]
    · simp [NumOps.rational, h, not_le.mp h]

theorem real_totalOrder : TotalOrder realNum where
  irrefl x := by simp [realNum]
  trans x y z h h' := by
    simp only [realNum, decide_eq_true_eq] at *
    exact h.trans h'
  total x y := by simpa [realNum] using lt_trichotomy x y
  le_iff x y := by
    by_cases h : x ≤ y
    · simp [realNum, h, not_lt.mpr h]
    · simp [realNum, h, not_le.mp h]

/-! ## Witnesses: the hypotheses of each statement are met together -/

theorem witness_DecodeAfterEncodeIsIdentity : (Instr.css .ccw 4095).wf = true := rfl

theorem witness_EncodeAfterDecodeClearsIgnoredBits : decode 0x6FFFE800 = .ok (.css .cw 2048) := by decide

theorem witness_IgnoredBitsChangeNothing :
    decode 0x6FFFE800 = .ok (.css .cw 2048) ∧
      (0x60000800#32) &&& usedBits (.css .cw 2048) = 0x6FFFE800#32 &&& usedBits (.css .cw 2048) := by decide

theorem witness_OperandsAreTheFieldsOfTheWord :
    (0x1FFFFFFF#32).toNat / 2 ^ 28 = 1 ∧ (0x20000000#32).toNat / 2 ^ 28 = 2 ∧ (0x30FFFFFF#32).toNat / 2 ^ 28 = 3 ∧
      (0x40000001#32).toNat / 2 ^ 28 = 4 ∧ (0x50000000#32).toNat / 2 ^ 28 = 5 ∧ (0x60001FFF#32).toNat / 2 ^ 28 = 6 ∧
      (0x70000006#32).toNat / 2 ^ 28 = 7 ∧ (0x70000006#32).toNat % 8 ≠ 7 := by decide

theorem witness_DecodedWordMeetsItsOpcodeRowAlone :
    decode 0x70000006 = .ok (.flt .phaseDOvercurrent) ∧ ⟨"FLT", 0x70000000, 0xF0000000⟩ ∈ opcodeTable ∧
      ⟨"RST", 0x10000000, 0xF0000000⟩ ∈ opcodeTable := by decide

theorem witness_StepPerformsTheDecodedOperation :
    ∃ (s t : State) (w : Wires Value), s.wires.cmdValid = true ∧ decode s.wires.cmd = .ok .piu ∧ exec .piu s = .next t ∧
      t.host = [w] :=
  ⟨{ (State.reset.presentWord 0x50000000) with host := [Wires.idle] }, _, _, rfl, by decide, rfl, rfl⟩

theorem witness_StepPerformsTheDecodedOperation_noHost :
    ∃ s t : State, s.wires.cmdValid = true ∧ decode s.wires.cmd = .ok .rst ∧ exec .rst s = .next t ∧ t.host = [] :=
  ⟨State.reset.presentWord 0x10000000, _, rfl, by decide, rfl, rfl⟩

theorem witness_NoCommandChangesNothing : (stateWith running).wires.cmdValid = false := rfl

theorem witness_ReservedWordHasNoStep :
    (State.reset.presentWord 0x0FFFFFFF).wires.cmdValid = true ∧
      (State.reset.presentWord 0x0FFFFFFF).wires.cmd.toNat / 2 ^ 28 = 0 ∧
      8 ≤ (State.reset.presentWord 0x80000000).wires.cmd.toNat / 2 ^ 28 ∧
      8 ≤ (State.reset.presentWord 0xFFFFFFFF).wires.cmd.toNat / 2 ^ 28 ∧
      (State.reset.presentWord 0x70000007).wires.cmd.toNat / 2 ^ 28 = 7 ∧
      (State.reset.presentWord 0x70000007).wires.cmd.toNat % 8 = 7 := by decide

/-- Ports that differ on `in_act` agree on all that `PIU` and `CSS` use; ports that differ on `in_meas` on all that `HCE` uses. -/
theorem witness_UnusedPortsCannotAffectAnOperation :
    let p : Ports Rat := { quiet with inAct := 1 }
    let q : Ports Rat := { quiet with inMeas := 1 }
    (p ≠ quiet ∧ p.inRef = quiet.inRef ∧ p.inMeas = quiet.inMeas) ∧
      (p.inIA = quiet.inIA ∧ p.inIB = quiet.inIB ∧ p.inIC = quiet.inIC ∧ p.inID = quiet.inID ∧
        p.inTheta = quiet.inTheta ∧ p.inSpeed = quiet.inSpeed) ∧
      (q ≠ quiet ∧ q.inRef = quiet.inRef ∧ q.inAct = quiet.inAct ∧ q.inBeta = quiet.inBeta) := by decide +kernel

theorem witness_PsrWritesTheSensorRegistersByTheFormulas :
    (0xFFFFFF#24).toNat % 4096 = (0xFFFFFF#24).toNat / 4096 ∧ (0x401402#24).toNat % 4096 ≠ (0x401402#24).toNat / 4096 := by
  decide

theorem witness_AcceptedAngleDependsOnTheWordAlone :
    (0x400400#24).toNat % 4096 = (0x400400#24).toNat / 4096 ∧
      (∃ t, exec (.psr 0x400400) State.reset = .next t) ∧ ∃ t, exec (.psr 0x400400) (stateWith running) = .next t :=
  ⟨by decide, ⟨_, rfl⟩, ⟨_, rfl⟩⟩

theorem witness_RawVelocityIsTheSineOfTheAngleStep : 0 < cfgReal.dt := by norm_num [cfgReal]

theorem witness_FirstReadAfterInitReportsZeroVelocity :
    (Instr.psi = .psi ∨ Instr.psi = .rst) ∧ (Instr.rst = .psi ∨ Instr.rst = .rst) := by decide

theorem witness_RejectedSampleDecaysTheFilter : (0x401402#24).toNat % 4096 ≠ (0x401402#24).toNat / 4096 := by decide

theorem witness_FilterMovesTowardTheRawVelocity :
    (0 ≤ cfgReal.kf ∧ cfgReal.kf ≤ 1) ∧ ({ cfgReal with kf := 1 } : Cfg ℝ).kf = 1 ∧
      ({ cfgReal with kf := 0 } : Cfg ℝ).kf = 0 := by norm_num [cfgReal]

/-- The three clauses of the switch decision are each met by some state and NUM of the machine's type. -/
theorem witness_HceComparesTheCurrentWithTheBand :
    (NumOps.rational.le (1 + 1 / 10) (11 / 10) = true) ∧
      (NumOps.rational.le (1 + 1 / 10) (9 / 10) = false ∧ NumOps.rational.le (9 / 10) (1 - 1 / 10) = true) ∧
      (NumOps.rational.le (1 + 1 / 10) 1 = false ∧ NumOps.rational.le 1 (1 - 1 / 10) = false) := by decide +kernel

/-- X4: reference 1, band 1/10: off at 23/20, on at 17/20, hold at 1; and 21/20 held off stays off at 11/10. -/
theorem witness_ComparatorLawsOverTheReals :
    (0 : ℝ) < 1 / 10 ∧ (1 : ℝ) + 1 / 10 ≤ 23 / 20 ∧ (17 / 20 : ℝ) ≤ 1 - 1 / 10 ∧
      ((1 : ℝ) - 1 / 10 < 1 ∧ (1 : ℝ) < 1 + 1 / 10) ∧
      ((21 / 20 : ℝ) ≤ 11 / 10 ∧ (comparator realNum 1 (21 / 20) (1 / 10) .off).out = .off) := by
  norm_num [comparator, switchDecision, realNum]

/-- The clamped and the unclamped clause are each met over the rationals (V2, V1). -/
theorem witness_PiuWritesThePiRegistersByTheFormulas :
    (NumOps.rational.lt Cfg.cfg0.outMax 30 = true ∧ NumOps.rational.lt (-1) Cfg.cfg0.outMin = true) ∧
      NumOps.rational.lt Cfg.cfg0.outMax 3 = false ∧ NumOps.rational.lt 3 Cfg.cfg0.outMin = false := by decide +kernel

theorem witness_PiUpdateStaysWithinTheLimits :
    TotalOrder NumOps.rational ∧ NumOps.rational.le Cfg.cfg0.outMin Cfg.cfg0.outMax = true :=
  ⟨rational_totalOrder, by decide +kernel⟩

theorem witness_PiUpdateStaysWithinTheLimits_real : TotalOrder realNum ∧ realNum.le cfgReal.outMin cfgReal.outMax = true :=
  ⟨real_totalOrder, by norm_num [realNum, cfgReal]⟩

/-- Registers after V2, with the output at its limit, besides the reset registers. -/
theorem witness_IntegratorStaysBoundedInEveryRun :
    TotalOrder NumOps.rational ∧ Cfg.cfg0.ok NumOps.rational ∧
      PiBounded NumOps.rational Cfg.cfg0 { (Regs.reset : Regs Rat) with pi := { integ := 5, out := 10 } } :=
  ⟨rational_totalOrder, by decide +kernel, .inr ⟨by decide +kernel, by decide +kernel⟩,
    .inr ⟨by decide +kernel, by decide +kernel⟩⟩

theorem witness_ProportionalOutputIsTheClampedError :
    cfgReal.ki = 0 ∧ cfgReal.kp = 1 ∧ cfgReal.outMin ≤ 0 ∧ 0 ≤ cfgReal.outMax ∧ cfgReal.kc = 0 := by
  norm_num [cfgReal]

theorem witness_AntiWindupBoundAtTheUpperLimit :
    cfgReal.outMin ≤ cfgReal.outMax ∧ 0 ≤ cfgReal.ki ∧ 0 ≤ cfgReal.kp ∧ 0 ≤ cfgReal.kc ∧ (0 : ℝ) < 4 - 0 ∧
      cfgReal.kc = 0 ∧ 1 ≤ ({ cfgReal with kc := 1 } : Cfg ℝ).kc := by norm_num [cfgReal]

theorem witness_CssInInitZeroesAndEntersControl : State.reset.regs.cs.state = .init := rfl

theorem witness_CssInFaultDoesNothing : (stateWith faulted).regs.cs.state = .fault := rfl

/-- Both clauses on `in_theta`: a level, and the sensor's wire. -/
theorem witness_CssInControlWrapsTheAngle :
    (stateWith running).regs.cs.state = .control ∧ (stateWith running).wires.inTheta = .level 0 ∧
      ∃ s : State, s.regs.cs.state = .control ∧ s.wires.inTheta = .sensor :=
  ⟨rfl, rfl, { stateWith running with wires := { (Wires.idle : Wires Value) with inTheta := .sensor } }, rfl, rfl⟩

/-- A tick is met in the machine itself, with the counter at its top; both clauses in a configuration a block may have. -/
theorem witness_CssInControlSelectsTheReference :
    (∃ s : State, s.regs.cs.state = .control ∧ Config.cfg.speedRate ≤ s.regs.cs.cnt.toNat + 1) ∧
      cfgSpeed.ok NumOps.rational ∧ cfgSpeed.speedFb = .rpm ∧ cfgSpeed.mode = .speed ∧
      cfgSpeed.speedRate ≤ (2#16).toNat + 1 ∧ (1#16).toNat + 1 < cfgSpeed.speedRate :=
  ⟨⟨stateWith { running with cs := { running.cs with cnt := 65535 } }, rfl, by
      have := Config.cfg_ok.2.2.2.2.1
      simp only [stateWith]
      show _ ≤ (65535#16).toNat + 1
      norm_num at this ⊢
      omega⟩,
    by decide +kernel, rfl, rfl, by decide, by decide⟩

/-- S3, S4, S7: the first entry, a later one as the first match, and none, in a configuration a block may have. -/
theorem witness_CssInControlDrivesTheFirstMatchingEntry :
    (stateWith running).regs.cs.state = .control ∧
      NumOps.rational.le 17 Cfg.cfg0.tableCw[0].off = true ∧
      (NumOps.rational.le (171 / 10) Cfg.cfg0.tableCw[0].off = false ∧
        NumOps.rational.le (171 / 10) Cfg.cfg0.tableCw[1].off = true) ∧
      ∀ k : Fin 4, NumOps.rational.le 61 Cfg.cfg0.tableCw[k].off = false := by decide +kernel

theorem witness_CssInControlLeavesTheRestAlone :
    running.cs.state = .control ∧ Cfg.cfg0.mode = .current ∧ running.cs.cnt.toNat + 1 < cfgSpeed.speedRate ∧
      (after { Cfg.cfg0 with ctrlTheta := 90 } (.css .cw 0) { quiet with inTheta := 61 } running).cs.selValid = false := by
  decide +kernel

theorem witness_ActivePhaseIsNeverDemagnetized :
    running.cs.state = .control ∧ (after Cfg.cfg0 (.css .cw 0) quiet running).cs.selValid = true := by decide +kernel

/-- Entry 0 drives phase A: ports that differ on the other three currents and on `in_speed`. -/
theorem witness_InactiveCurrentsCannotAffectControl :
    let p : Ports Rat := { quiet with inIB := 1, inIC := 2, inID := 3, inSpeed := 4 }
    running.cs.state = .control ∧ p.inTheta = quiet.inTheta ∧ Cfg.cfg0.mode ≠ .speed ∧
      tableWalk NumOps.rational Cfg.cfg0 .cw (offsetTheta NumOps.rational Cfg.cfg0 .cw
        (wrappedTheta NumOps.rational Cfg.cfg0 p.inTheta)) = some ⟨0, 17, .a, .b⟩ ∧
      p.current .a = quiet.current .a := by decide +kernel

theorem witness_InactiveCurrentsCannotAffectControl_speed :
    cfgSpeed.mode = .speed ∧ ({ quiet with inIB := 1 } : Ports Rat).inSpeed = quiet.inSpeed := by decide +kernel

theorem witness_OrderedTableEntryWinsOnItsInterval :
    cfgReal.tableOrdered realNum .cw = true ∧ cfgReal.tableOrdered realNum .ccw = true := by
  norm_num [cfgReal, Cfg.tableOrdered, realNum]

theorem witness_WrappedAngleAlwaysMeetsACoveringTable :
    0 < cfgReal.ctrlTheta ∧ (0 : ℝ) ≤ 100 ∧ cfgReal.tableCovers realNum .cw = true ∧ cfgReal.tableCovers realNum .ccw = true := by
  norm_num [cfgReal, Cfg.tableCovers, realNum]

theorem real_flooredModulo : realNum.FlooredModulo := by
  intro x c hc
  simp only [realNum, NumOps.CongruentMod, decide_eq_true_eq] at hc ⊢
  have lower := (le_div_iff₀ hc).mp (Int.floor_le (x / c))
  have upper := (div_lt_iff₀ hc).mp (Int.lt_floor_add_one (x / c))
  refine ⟨by linarith, by linarith, ⌊x / c⌋.natAbs, ?_⟩
  rcases Int.natAbs_eq ⌊x / c⌋ with h | h
  · have hq : (⌊x / c⌋ : ℝ) = (⌊x / c⌋.natAbs : ℝ) := (congrArg Int.cast h).trans (Int.cast_natCast _)
    exact .inl (by rw [← hq]; ring)
  · have hq : (⌊x / c⌋ : ℝ) = -(⌊x / c⌋.natAbs : ℝ) :=
      (congrArg Int.cast h).trans (by rw [Int.cast_neg, Int.cast_natCast])
    exact .inr (by rw [hq]; ring)

theorem real_le_trans (x y z : ℝ) (h : realNum.le x y = true) (h' : realNum.le y z = true) : realNum.le x z = true := by
  simp only [realNum, decide_eq_true_eq] at *
  exact h.trans h'

/-- Both directions' tables cover the period, over the rationals and over the reals. -/
theorem witness_CoveringTableAlwaysYieldsAnEntry :
    TotalOrder NumOps.rational ∧ NumOps.rational.FlooredModulo ∧ Cfg.cfg0.ok NumOps.rational ∧
      (∀ x y z, NumOps.rational.le x y = true → NumOps.rational.le y z = true → NumOps.rational.le x z = true) ∧
      Cfg.cfg0.tableCovers NumOps.rational .cw = true ∧ Cfg.cfg0.tableCovers NumOps.rational .ccw = true ∧
      running.cs.state = .control ∧ TotalOrder realNum ∧ realNum.FlooredModulo ∧
      (∀ x y z, realNum.le x y = true → realNum.le y z = true → realNum.le x z = true) :=
  ⟨rational_totalOrder, NumOps.rational_flooredModulo, by decide +kernel,
    fun _ _ _ h h' => by
      simp only [NumOps.rational, decide_eq_true_eq] at *
      exact h.trans h',
    by decide +kernel, by decide +kernel, rfl, real_totalOrder, real_flooredModulo, real_le_trans⟩

theorem witness_DialMapsAreMonotoneOntoTheirSpans :
    cfgReal.minSpeed ≤ cfgReal.maxSpeed ∧ 0 ≤ cfgReal.maxCurrentRef ∧ (819 : Count) ≤ 1365 :=
  ⟨by norm_num [cfgReal], by norm_num [cfgReal], by decide⟩

theorem witness_DecimationCounterIsTheInvocationsModuloSpeedRate :
    cfgSpeed.ok NumOps.rational ∧ cfgSpeed.mode = .speed ∧ inControl.cs.state = .control ∧ inControl.cs.cnt = 0 ∧
      [((Dir.cw, (4095 : Count), quiet) : Dir × Count × Ports Rat)].length < cfgSpeed.speedRate := by decide +kernel

/-- After two invocations the third completes a multiple of 3; after one the second does not. -/
theorem witness_EveryNthInvocationRunsThePiController :
    cfgSpeed.ok NumOps.rational ∧ cfgSpeed.mode = .speed ∧ inControl.cs.state = .control ∧ inControl.cs.cnt = 0 ∧
      (2 + 1) % cfgSpeed.speedRate = 0 ∧ (1 + 1) % cfgSpeed.speedRate ≠ 0 := by decide +kernel

theorem witness_FltEntersFaultFromAnyState : FaultCode.overcurrentHW ≠ .none := by decide

/-- Each register group is changed by some operation that may write it. -/
theorem witness_RegistersAreWrittenOnlyByTheirOperations :
    (∃ t, exec .rst (stateWith faulted) = .next t ∧ t.regs.cs.state ≠ faulted.cs.state ∧
      t.regs.cs.fault ≠ faulted.cs.fault ∧ t.regs.cs.iRef ≠ faulted.cs.iRef) ∧
      ∃ t, exec .rst (stateWith { faulted with
          ps := { (PsRegs.reset : PsRegs Rat) with rawCount := 1 }, hc := ⟨1, 1, .on⟩, pi := ⟨1, 1⟩ }) = .next t ∧
        t.regs.ps.rawCount ≠ 1 ∧ t.regs.hc ≠ ⟨1, 1, .on⟩ ∧ t.regs.pi ≠ ⟨1, 1⟩ :=
  ⟨⟨_, rfl, by decide +kernel⟩, ⟨_, rfl, by decide +kernel⟩⟩

theorem witness_DriverEventsComeOnlyFromControlAndFaults :
    ∃ t, exec (.flt .overcurrentHW) State.reset = .next t ∧ t.events ≠ [] := ⟨_, rfl, by decide⟩

theorem witness_OnlyRstLeavesFault :
    ∃ s t : State, s.regs.cs.state = .fault ∧ step s = .next t ∧ t.regs.cs.state ≠ .fault :=
  ⟨(stateWith faulted).presentWord 0x10000000, _, rfl, step_of_decode (i := .rst) rfl (by decide), by
    rw [State.advanceHost_regs]; decide⟩

/-- The host presents `FLT PhaseCOvercurrent` and then `CSS`. -/
theorem witness_FaultLastsUntilReinitialisation :
    ∃ s : State, s.regs.cs.state = .fault ∧ s.regs.cs.fault ≠ .none ∧ s.noReinit = true ∧
      ∃ t, Sys2Proof.core.run (0 + 1) s = .next t :=
  ⟨{ ((stateWith faulted).presentWord 0x70000005) with host := [(Wires.idle : Wires Value).present 0x60000FFF] },
    rfl, by decide, by decide, _, by
      rw [run_succ_next (step_of_decode (i := .flt .phaseCOvercurrent) rfl (by decide))]
      rfl⟩

theorem witness_FaultBetweenReadAndSelectSilencesTheCycle : FaultCode.phaseAOvercurrent ≠ .none := by decide

theorem witness_RepeatingAnIdempotentOperationChangesNothing : (stateWith faulted).regs.cs.state = .fault := rfl

theorem witness_CycFeedsTheSelectorFromTheSensor :
    ∃ (s : State) (m₁ m₂ : Wires Value), cycMoves Wires.idle 0x400400 .cw 819 0 0 0 0 = [m₁, m₂] ∧ s.wires = m₁ ∧
      s.host = [m₂] :=
  ⟨{ State.reset with
      wires := (Wires.idle : Wires Value).present (encode (.psr 0x400400))
      host := (cycMoves Wires.idle 0x400400 .cw 819 0 0 0 0).tail }, _, _, rfl, rfl, rfl⟩

/-- Each clause of the monitor's contract, at its boundary: a current at its threshold does not trip. -/
theorem witness_MonitorReportsTheLastPhaseOverItsThreshold :
    let t : Thresholds Rat := ⟨1, 1, 1, 1⟩
    faultMonitor NumOps.rational t 2 2 2 2 = .phaseDOvercurrent ∧ faultMonitor NumOps.rational t 2 2 2 1 = .phaseCOvercurrent ∧
      faultMonitor NumOps.rational t 2 2 1 1 = .phaseBOvercurrent ∧
      faultMonitor NumOps.rational t 2 1 1 1 = .phaseAOvercurrent ∧ faultMonitor NumOps.rational t 1 1 1 1 = .none := by
  decide +kernel

theorem witness_EveryStepKeepsTheInvariant : ∃ s t : State, s.Inv ∧ step s = .next t :=
  ⟨State.reset.presentWord 0x10000000, _,
    ⟨⟨by simp, by have := Config.cfg_ok.2.2.2.1; simp; omega, by simp, by simp, by simp⟩, .inl rfl⟩,
    step_of_decode (i := .rst) rfl (by decide)⟩

theorem witness_LegalHostIsNeverRefused :
    ({ (State.reset.presentWord 0x60000333) with host := [(Wires.idle : Wires Value).present 0x70000003] } : State).legalHost =
      true := by decide

end Sys2Proof.Tests
end

section
/-! The register groups (spec/10_state.md R20 to R25): which operations leave which group alone, and the reset registers. -/

namespace Sys2Proof.Machine

variable {α : Type}

/-! ## What each operation leaves unchanged -/

/-- R113: a read whose halves disagree retains both counts. -/
theorem readCounts_of_ne (c : Cfg α) {raw : RawWord} (h : rawLower raw ≠ rawUpper raw) (ps : PsRegs α) :
    readCounts c raw ps = (ps.rawCount, ps.compCount) := by
  simp [readCounts, h]

/-- R190: the CONTROL arm writes no `ps` register. -/
@[simp] theorem cssControl_ps (N : NumOps α) (c : Cfg α) (dir : Dir) (dial : Count) (p : Ports α) (r : Regs α) :
    (cssControl N c dir dial p r).1.ps = r.ps := by
  obtain ⟨-, h⟩ | ⟨e, -, h⟩ := cssControl_cases N c dir dial p r <;>
    simp [h, driveNone, driveEntry, controlBefore]

@[simp] theorem cssControl_fault (N : NumOps α) (c : Cfg α) (dir : Dir) (dial : Count) (p : Ports α) (r : Regs α) :
    (cssControl N c dir dial p r).1.cs.fault = r.cs.fault := by
  obtain ⟨cnt, iRef, speedRef, hcs⟩ := referenceStep_cs N c dial p r
  obtain ⟨-, h⟩ | ⟨e, -, h⟩ := cssControl_cases N c dir dial p r <;>
    simp [h, driveNone, driveEntry, controlBefore, hcs]

@[simp] theorem cssOp_ps [Zero α] (N : NumOps α) (c : Cfg α) (dir : Dir) (dial : Count) (p : Ports α) (r : Regs α) :
    (cssOp N c dir dial p r).1.ps = r.ps := by
  cases h : r.cs.state with
  | init => rw [cssOp_init _ _ _ _ _ h]; rfl
  | control => rw [cssOp_control _ _ _ _ _ h, cssControl_ps]
  | fault => rw [cssOp_fault _ _ _ _ _ h]

/-- R25: only the INIT arm of CSS writes `cs.fault`. -/
theorem cssOp_cs_fault [Zero α] (N : NumOps α) (c : Cfg α) (dir : Dir) (dial : Count) (p : Ports α) {r : Regs α}
    (hs : r.cs.state ≠ .init) : (cssOp N c dir dial p r).1.cs.fault = r.cs.fault := by
  cases h : r.cs.state with
  | init => exact absurd h hs
  | control => rw [cssOp_control _ _ _ _ _ h, cssControl_fault]
  | fault => rw [cssOp_fault _ _ _ _ _ h]

/-- R245, R246: FLT writes `cs.state` and `cs.fault` at most. -/
theorem fltOp_frame (code : FaultCode) (p : Ports α) (r : Regs α) :
    ∃ state fault, (fltOp code p r).1 = { r with cs := { r.cs with state := state, fault := fault } } := by
  unfold fltOp
  split
  · exact ⟨r.cs.state, r.cs.fault, rfl⟩
  · exact ⟨_, _, rfl⟩

/-! ## Which operations can have changed a register group -/

section Changed

variable [Zero α] {N : NumOps α} {c : Cfg α} {i : Instr} {p : Ports α} {r : Regs α}

/-- R22. -/
theorem operate_ps_changed (h : (operate N c i p r).1.ps ≠ r.ps) :
    i = .psi ∨ (∃ raw, i = .psr raw) ∨ i = .rst := by
  cases i with
  | rst => exact .inr (.inr rfl)
  | psi => exact .inl rfl
  | psr raw => exact .inr (.inl ⟨raw, rfl⟩)
  | hce | piu => exact absurd rfl h
  | css dir dial => exact absurd (cssOp_ps N c dir dial p r) h
  | flt code =>
    obtain ⟨state, fault, hf⟩ := fltOp_frame code p r
    exact absurd (congrArg Regs.ps hf) h

/-- R22, R113: among the reads only an accepted one changes a count. -/
theorem operate_counts_changed
    (h : (operate N c i p r).1.ps.rawCount ≠ r.ps.rawCount ∨ (operate N c i p r).1.ps.compCount ≠ r.ps.compCount) :
    i = .psi ∨ i = .rst ∨ ∃ raw, i = .psr raw ∧ rawLower raw = rawUpper raw := by
  have hps : (operate N c i p r).1.ps ≠ r.ps := fun e => by simp [e] at h
  obtain rfl | ⟨raw, rfl⟩ | rfl := operate_ps_changed hps
  · exact .inl rfl
  · by_cases hraw : rawLower raw = rawUpper raw
    · exact .inr (.inr ⟨raw, rfl, hraw⟩)
    · simp [operate, psrOp, readSensor, readCounts_of_ne c hraw] at h
  · exact .inr (.inl rfl)

/-- R23. -/
theorem operate_hc_changed (h : (operate N c i p r).1.hc ≠ r.hc) :
    (∃ prev, i = .hce prev) ∨ (∃ dir dial, i = .css dir dial) ∨ i = .rst := by
  cases i with
  | rst => exact .inr (.inr rfl)
  | hce prev => exact .inl ⟨prev, rfl⟩
  | css dir dial => exact .inr (.inl ⟨dir, dial, rfl⟩)
  | psi | psr | piu => exact absurd rfl h
  | flt code =>
    obtain ⟨state, fault, hf⟩ := fltOp_frame code p r
    exact absurd (congrArg Regs.hc hf) h

/-- R24. -/
theorem operate_pi_changed (h : (operate N c i p r).1.pi ≠ r.pi) :
    i = .piu ∨ (∃ dir dial, i = .css dir dial) ∨ i = .rst := by
  cases i with
  | rst => exact .inr (.inr rfl)
  | piu => exact .inl rfl
  | css dir dial => exact .inr (.inl ⟨dir, dial, rfl⟩)
  | psi | psr | hce => exact absurd rfl h
  | flt code =>
    obtain ⟨state, fault, hf⟩ := fltOp_frame code p r
    exact absurd (congrArg Regs.pi hf) h

/-- R25: the whole `cs` group. -/
theorem operate_cs_changed (h : (operate N c i p r).1.cs ≠ r.cs) :
    (∃ dir dial, i = .css dir dial) ∨ (∃ code, i = .flt code) ∨ i = .rst := by
  cases i with
  | rst => exact .inr (.inr rfl)
  | css dir dial => exact .inl ⟨dir, dial, rfl⟩
  | flt code => exact .inr (.inl ⟨code, rfl⟩)
  | psi | psr | hce | piu => exact absurd rfl h

/-- R25: `cs.fault`, which CSS writes in INIT only. -/
theorem operate_cs_fault_changed (h : (operate N c i p r).1.cs.fault ≠ r.cs.fault) :
    (∃ code, i = .flt code) ∨ i = .rst ∨ ∃ dir dial, i = .css dir dial ∧ r.cs.state = .init := by
  obtain ⟨dir, dial, rfl⟩ | flt | rst := operate_cs_changed (ne_of_apply_ne CsRegs.fault h)
  · exact .inr (.inr ⟨dir, dial, rfl, not_imp_comm.mp (cssOp_cs_fault N c dir dial p) h⟩)
  · exact .inl flt
  · exact .inr (.inl rst)

/-- R25: the `cs` registers other than `cs.state` and `cs.fault`, which FLT does not write. -/
theorem operate_cs_rest_changed
    (h : { (operate N c i p r).1.cs with state := r.cs.state, fault := r.cs.fault } ≠ r.cs) :
    (∃ dir dial, i = .css dir dial) ∨ i = .rst := by
  have hcs : (operate N c i p r).1.cs ≠ r.cs := fun e => h (by rw [e])
  obtain css | ⟨code, rfl⟩ | rst := operate_cs_changed hcs
  · exact .inl css
  · obtain ⟨state, fault, hf⟩ := fltOp_frame code p r
    exact absurd (by rw [operate, hf]) h
  · exact .inr rst

end Changed

/-- Settles O47: `exec` performs the instruction's operation, and each register group is traced back through it. -/
theorem registersAreWrittenOnlyByTheirOperations : Obligations.RegistersAreWrittenOnlyByTheirOperations := by
  unfold Obligations.RegistersAreWrittenOnlyByTheirOperations
  intro i s t h
  rw [exec_eq] at h
  injection h with h
  subst h
  exact ⟨operate_ps_changed, operate_counts_changed, operate_hc_changed, operate_pi_changed, operate_cs_fault_changed,
    fun h => operate_cs_changed (ne_of_apply_ne CsRegs.state h), operate_cs_rest_changed⟩

/-! ## The reset registers -/

/-- R50: the reset registers meet the invariant of every well-formed configuration; `1 ≤ SPEED_RATE` (R45) puts the
counter's 0 below it. -/
theorem regsInv_reset [Zero α] {N : NumOps α} {c : Cfg α} (hc : c.ok N) : RegsInv c Regs.reset := by
  obtain ⟨-, -, -, rate_pos, -⟩ := hc
  have cnt_lt : (0 : TickCount).toNat < c.speedRate := rate_pos
  exact ⟨by simp, cnt_lt, fun _ => rfl, fun _ => ⟨rfl, rfl⟩, by simp⟩

/-- Settles O55: the registers are the reset registers, and no event has been sent. -/
theorem resetMeetsTheInvariant : Obligations.ResetMeetsTheInvariant :=
  ⟨regsInv_reset Config.cfg_ok, .inl State.reset_events⟩

end Sys2Proof.Machine
end

section
/-! The operand ports (spec/20_memory.md R60 to R66) and repetition (R73): what the sampled ports carry, which ports an
operation uses, and which operations change nothing when they are repeated. -/

namespace Sys2Proof.Machine

variable {α : Type}

/-! ## What the sampled ports carry -/

section Sampling

variable {c : Cfg α} {w : Wires α} {r : Regs α}

theorem samplePorts_inTheta_level {x : α} (h : w.inTheta = .level x) : (samplePorts c w r).inTheta = x := by
  simp [samplePorts, thetaPort, h]

theorem samplePorts_inTheta_sensor (h : w.inTheta = .sensor) : (samplePorts c w r).inTheta = r.ps.theta := by
  simp [samplePorts, thetaPort, h]

theorem samplePorts_inSpeed_level {x : α} (h : w.inSpeed = .level x) : (samplePorts c w r).inSpeed = x := by
  simp [samplePorts, speedPort, h]

/-- R250: with `SPEED_FB` = RPM the sensor's wire carries `ps.rpm`. -/
theorem samplePorts_inSpeed_sensor (hc : c.speedFb = .rpm) (h : w.inSpeed = .sensor) :
    (samplePorts c w r).inSpeed = r.ps.rpm := by
  simp [samplePorts, speedPort, speedOutput, hc, h]

end Sampling

/-- Settles O12: the ports are those `exec` samples. -/
theorem execIsTheOperationOnTheSampledPorts : Obligations.ExecIsTheOperationOnTheSampledPorts := by
  unfold Obligations.ExecIsTheOperationOnTheSampledPorts
  intro i s
  exact ⟨samplePorts Config.cfg s.wires s.regs, rfl, rfl, rfl, rfl, rfl, rfl, rfl, rfl,
    fun _ => samplePorts_inTheta_level, samplePorts_inTheta_sensor,
    fun _ => samplePorts_inSpeed_level, samplePorts_inSpeed_sensor Config.cfg_speedFb, exec_eq i s⟩

/-! ## The ports an operation uses (R85) -/

section Congr

variable {N : NumOps α} {c : Cfg α} {p q : Ports α} {r : Regs α}

theorem hceOp_congr (prev : Switch) (href : p.inRef = q.inRef) (hact : p.inAct = q.inAct)
    (hbeta : p.inBeta = q.inBeta) : hceOp N prev p r = hceOp N prev q r := by
  simp only [hceOp, href, hact, hbeta]

theorem piuOp_congr (href : p.inRef = q.inRef) (hmeas : p.inMeas = q.inMeas) : piuOp N c p r = piuOp N c q r := by
  simp only [piuOp, href, hmeas]

theorem Ports.current_congr (ha : p.inIA = q.inIA) (hb : p.inIB = q.inIB) (hc : p.inIC = q.inIC) (hd : p.inID = q.inID) :
    p.current = q.current := by
  funext phase
  cases phase with
  | a => exact ha
  | b => exact hb
  | c => exact hc
  | d => exact hd

/-- R177: step (c) samples `in_speed` alone. -/
theorem referenceStep_congr (dial : Count) (hspeed : p.inSpeed = q.inSpeed) :
    referenceStep N c dial p r = referenceStep N c dial q r := by
  simp only [referenceStep, speedStep, hspeed]

/-- R186: step (e) samples the phase currents alone. -/
theorem driveStep_congr (found : Option (TableEntry α)) (hcur : p.current = q.current) :
    driveStep N c found p r = driveStep N c found q r := by
  cases found with
  | none => rfl
  | some e => simp only [driveStep, driveEntry, hcur]

theorem cssControl_congr (dir : Dir) (dial : Count) (hcur : p.current = q.current) (htheta : p.inTheta = q.inTheta)
    (hspeed : p.inSpeed = q.inSpeed) : cssControl N c dir dial p r = cssControl N c dir dial q r := by
  simp only [cssControl, htheta, referenceStep_congr dial hspeed, driveStep_congr _ hcur]

/-- R161: the INIT and FAULT arms sample no port. -/
theorem cssOp_congr [Zero α] (dir : Dir) (dial : Count) (hcur : p.current = q.current) (htheta : p.inTheta = q.inTheta)
    (hspeed : p.inSpeed = q.inSpeed) : cssOp N c dir dial p r = cssOp N c dir dial q r := by
  simp only [cssOp, cssControl_congr dir dial hcur htheta hspeed]

end Congr

/-- Settles O13, by cases on the operation: each is a function of the ports it uses. -/
theorem unusedPortsCannotAffectAnOperation : Obligations.UnusedPortsCannotAffectAnOperation := by
  unfold Obligations.UnusedPortsCannotAffectAnOperation
  intro α _ N c i p q r h
  cases i with
  | rst | psi | psr | flt => rfl
  | hce prev =>
    obtain ⟨href, hact, hbeta⟩ := h
    exact hceOp_congr prev href hact hbeta
  | piu =>
    obtain ⟨href, hmeas⟩ := h
    exact piuOp_congr href hmeas
  | css dir dial =>
    obtain ⟨ha, hb, hc, hd, htheta, hspeed⟩ := h
    exact cssOp_congr dir dial (Ports.current_congr ha hb hc hd) htheta hspeed

/-! ## Repeating an operation (R73) -/

/-- R245: in FAULT with a code latched, taking another fault changes no register. -/
theorem faultEntry_of_latched (code : FaultCode) {r : Regs α} (hs : r.cs.state = .fault) (hf : r.cs.fault ≠ .none) :
    (faultEntry code r).1 = r := by
  simp only [faultEntry, if_neg hf, ← hs]

/-- R245: taking a fault leaves a code latched. -/
theorem faultEntry_fault_ne_none {code : FaultCode} (hcode : code ≠ .none) (r : Regs α) :
    (faultEntry code r).1.cs.fault ≠ .none := by
  by_cases hf : r.cs.fault = .none
  · simpa [faultEntry, hf] using hcode
  · simp [faultEntry, hf]

theorem fltOp_idempotent (code : FaultCode) (p q : Ports α) (r : Regs α) :
    (fltOp code q (fltOp code p r).1).1 = (fltOp code p r).1 := by
  by_cases hcode : code = .none
  · simp only [fltOp, if_pos hcode]
  · simp only [fltOp, if_neg hcode]
    exact faultEntry_of_latched code rfl (faultEntry_fault_ne_none hcode r)

/-- `HCE` keeps no memory (R140), so that on the same three levels it writes the same three registers. -/
theorem hceOp_idempotent (N : NumOps α) (prev : Switch) {p q : Ports α} (href : p.inRef = q.inRef)
    (hact : p.inAct = q.inAct) (hbeta : p.inBeta = q.inBeta) (r : Regs α) :
    (hceOp N prev q (hceOp N prev p r).1).1 = (hceOp N prev p r).1 := by
  rw [hceOp_congr prev href hact hbeta]
  rfl

/-- Settles O52, by cases on the operation; the wires are the same for both, so that the second `HCE` samples the levels
of the first. -/
theorem repeatingAnIdempotentOperationChangesNothing : Obligations.RepeatingAnIdempotentOperationChangesNothing := by
  unfold Obligations.RepeatingAnIdempotentOperationChangesNothing
  intro i s h
  refine ⟨_, _, exec_eq i s, exec_eq i _, ?_⟩
  simp only [State.perform_regs, State.perform_wires]
  cases i with
  | rst | psi => rfl
  | psr | piu => exact h.elim
  | hce prev => exact hceOp_idempotent Config.num prev rfl rfl rfl s.regs
  | css dir dial => simp only [operate, cssOp_fault _ _ _ _ _ h]
  | flt code => simp only [operate, fltOp_idempotent]

end Sys2Proof.Machine
end

section
/-! Encoding (spec/30_encoding.md R81 to R97): a word decodes to an operation exactly when its `op` and its operand bits
are the operation's numbers. -/

namespace Sys2Proof

open Sys2Proof.Laws.OpField (opOf)

/-! ## The two numbers of a command word: its `op` and its operand -/

/-- R82: how many low bits of a word hold the operand. -/
def operandWidth : Instr → Nat
  | .rst => 0
  | .psi => 0
  | .psr _ => 24
  | .hce _ => 1
  | .piu => 0
  | .css _ _ => 13
  | .flt _ => 3

/-- R82, R90: the number the operand bits hold. -/
def operandCode : Instr → Nat
  | .rst => 0
  | .psi => 0
  | .psr raw => raw.toNat
  | .hce prev => prev.code.toNat
  | .piu => 0
  | .css dir dial => dir.code.toNat * 2 ^ 12 + dial.toNat
  | .flt code => code.code.toNat

@[simp] theorem Dir.code_ofCode (c : BitVec 1) : (Dir.ofCode c).code = c := by
  obtain rfl | rfl := BitVec.eq_zero_or_eq_one c <;> rfl

@[simp] theorem Switch.code_ofCode (c : BitVec 1) : (Switch.ofCode c).code = c := by
  obtain rfl | rfl := BitVec.eq_zero_or_eq_one c <;> rfl

theorem encode_toNat_eq (i : Instr) : (encode i).toNat = opOf i * 2 ^ 28 + operandCode i := by
  rw [encode_toNat]
  cases i <;> simp only [opOf, operandCode, Nat.add_zero, Nat.add_assoc]

theorem usedBits_toNat (i : Instr) : (usedBits i).toNat = 15 * 2 ^ 28 + (2 ^ operandWidth i - 1) := by
  cases i <;> simp only [usedBits, operandWidth] <;> decide

theorem operandWidth_le (i : Instr) : operandWidth i ≤ 28 := by
  cases i <;> simp [operandWidth]

theorem operandCode_lt (i : Instr) : operandCode i < 2 ^ operandWidth i := by
  cases i with
  | rst | psi | piu => exact Nat.one_pos
  | psr raw => exact raw.isLt
  | hce prev => exact prev.code.isLt
  | flt code => exact code.code.isLt
  | css dir dial =>
    have hdir := dir.code.isLt
    have hdial := dial.isLt
    simp only [operandCode, operandWidth]
    omega

/-- A mask of bits 31:28 and the low `k` bits keeps the quotient and the remainder. -/
theorem and_opMask {w k : Nat} (hw : w < 2 ^ 32) (hk : k ≤ 28) :
    w &&& (15 * 2 ^ 28 + (2 ^ k - 1)) = w / 2 ^ 28 * 2 ^ 28 + w % 2 ^ k := by
  have hpow : 2 ^ k ≤ 2 ^ 28 := Nat.pow_le_pow_right two_pos hk
  have hpos : 0 < 2 ^ k := Nat.two_pow_pos k
  have hdiv : (w &&& (15 * 2 ^ 28 + (2 ^ k - 1))) / 2 ^ 28 = w / 2 ^ 28 := by
    rw [Nat.and_div_two_pow, show (15 * 2 ^ 28 + (2 ^ k - 1)) / 2 ^ 28 = 2 ^ 4 - 1 by omega,
      Nat.and_two_pow_sub_one_eq_mod]
    omega
  have hmod : (w &&& (15 * 2 ^ 28 + (2 ^ k - 1))) % 2 ^ 28 = w % 2 ^ k := by
    rw [Nat.and_mod_two_pow, show (15 * 2 ^ 28 + (2 ^ k - 1)) % 2 ^ 28 = 2 ^ k - 1 by omega,
      Nat.and_two_pow_sub_one_eq_mod, Nat.mod_mod_of_dvd w (pow_dvd_pow 2 hk)]
  rw [← hdiv, ← hmod, Nat.div_add_mod']

theorem and_usedBits_toNat (w : Word) (i : Instr) :
    (w &&& usedBits i).toNat = w.toNat / 2 ^ 28 * 2 ^ 28 + w.toNat % 2 ^ operandWidth i := by
  rw [BitVec.toNat_and, usedBits_toNat, and_opMask w.isLt (operandWidth_le i)]

/-- R97: a word decodes to an operation exactly when its `op` and its operand bits are the operation's. -/
theorem decode_eq_ok_iff {w : Word} {i : Instr} :
    decode w = .ok i ↔ w.toNat / 2 ^ 28 = opOf i ∧ w.toNat % 2 ^ operandWidth i = operandCode i := by
  have hop := opField_toNat w
  constructor
  · intro hd
    obtain ⟨h, rfl⟩ | ⟨h, rfl⟩ | ⟨h, rfl⟩ | ⟨h, rfl⟩ | ⟨h, rfl⟩ | ⟨h, rfl⟩ | ⟨h, code, hcode, rfl⟩ :=
      decode_ok_cases hd
    all_goals refine ⟨hop.symm.trans h, ?_⟩
    · exact Nat.mod_one _
    · exact Nat.mod_one _
    · exact (rawField_toNat w).symm
    · rw [operandCode, Switch.code_ofCode, prevField_toNat]; rfl
    · exact Nat.mod_one _
    · rw [operandCode, Dir.code_ofCode, dirField_toNat, dialField_toNat, operandWidth]
      omega
    · rw [operandCode, FaultCode.code_of_ofCode hcode, codeField_toNat]; rfl
  · rintro ⟨h, hcode⟩
    replace h := hop.trans h
    cases i with
    | rst => exact decode_op1 h
    | psi => exact decode_op2 h
    | psr raw =>
      have hraw : rawField w = raw := BitVec.eq_of_toNat_eq ((rawField_toNat w).trans hcode)
      rw [decode_op3 h, hraw]
    | hce prev =>
      have hprev : prevField w = prev.code := BitVec.eq_of_toNat_eq ((prevField_toNat w).trans hcode)
      rw [decode_op4 h, hprev, Switch.ofCode_code]
    | piu => exact decode_op5 h
    | css dir dial =>
      simp only [operandWidth, operandCode] at hcode
      have hdir : dirField w = dir.code := BitVec.eq_of_toNat_eq (by rw [dirField_toNat]; omega)
      have hdial : dialField w = dial := BitVec.eq_of_toNat_eq (by rw [dialField_toNat]; omega)
      rw [decode_op6 h, hdir, hdial, Dir.ofCode_code]
    | flt code =>
      have hfield : codeField w = code.code := BitVec.eq_of_toNat_eq ((codeField_toNat w).trans hcode)
      exact decode_op7 h (by rw [hfield, FaultCode.ofCode_code])

/-- R82, R97: a word decodes to an operation exactly when, its ignored bits cleared, it is the operation's own word. -/
theorem decode_eq_ok_iff_encode {w : Word} {i : Instr} : decode w = .ok i ↔ encode i = w &&& usedBits i := by
  have hpow : 2 ^ operandWidth i ≤ 2 ^ 28 := Nat.pow_le_pow_right two_pos (operandWidth_le i)
  have hcode := operandCode_lt i
  have hmod := Nat.mod_lt w.toNat (Nat.two_pow_pos (operandWidth i))
  rw [decode_eq_ok_iff, BitVec.toNat_eq, encode_toNat_eq, and_usedBits_toNat]
  omega

/-- R97: decode after encode is the identity. -/
@[simp] theorem decode_encode (i : Instr) : decode (encode i) = .ok i := by
  have hcode := operandCode_lt i
  have hpow : 2 ^ operandWidth i ∣ 2 ^ 28 := pow_dvd_pow 2 (operandWidth_le i)
  rw [decode_eq_ok_iff, encode_toNat_eq]
  constructor
  · have := Nat.le_of_dvd (by decide) hpow
    omega
  · rw [Nat.add_mod, Nat.mod_eq_zero_of_dvd (hpow.mul_left _), Nat.zero_add, Nat.mod_mod, Nat.mod_eq_of_lt hcode]

/-- Settles O2: the two numbers of `encode i` are those of `i`. -/
theorem decodeAfterEncodeIsIdentity : Obligations.DecodeAfterEncodeIsIdentity := by
  unfold Obligations.DecodeAfterEncodeIsIdentity
  intro i _
  exact decode_encode i

/-- Settles O3: it is one direction of what decoding is. -/
theorem encodeAfterDecodeClearsIgnoredBits : Obligations.EncodeAfterDecodeClearsIgnoredBits := by
  unfold Obligations.EncodeAfterDecodeClearsIgnoredBits
  intro w i h
  exact decode_eq_ok_iff_encode.mp h

/-- Settles O4: what a word decodes to is fixed by the word with its ignored bits cleared. -/
theorem ignoredBitsChangeNothing : Obligations.IgnoredBitsChangeNothing := by
  unfold Obligations.IgnoredBitsChangeNothing
  intro w w' i h hbits
  rw [decode_eq_ok_iff_encode] at h ⊢
  rw [h, hbits]

/-! ## The operands as numbers (R84, R111) -/

theorem rawLower_toNat (raw : RawWord) : (Machine.rawLower raw).toNat = raw.toNat % 2 ^ 12 := by
  simp [Machine.rawLower]

theorem rawUpper_toNat (raw : RawWord) : (Machine.rawUpper raw).toNat = raw.toNat / 2 ^ 12 := by
  have := raw.isLt
  simp only [Machine.rawUpper, BitVec.extractLsb'_toNat, Nat.shiftRight_eq_div_pow]
  omega

/-- Settles O5: `decode` by the value of `op`, and each field as a number. -/
theorem operandsAreTheFieldsOfTheWord : Obligations.OperandsAreTheFieldsOfTheWord := by
  unfold Obligations.OperandsAreTheFieldsOfTheWord
  intro w
  simp only [← opField_toNat w]
  refine ⟨decode_op1, decode_op2, fun h => ⟨_, decode_op3 h, rawField_toNat w, ?_, ?_⟩, fun h => ?_, decode_op5,
    fun h => ⟨dialField w, ?_, dialField_toNat w⟩, fun h h7 => ?_⟩
  · rw [rawLower_toNat, rawField_toNat]
    omega
  · rw [rawUpper_toNat, rawField_toNat]
    omega
  · rw [decode_op4 h, Switch.ofCode_eq, prevField_toNat]
  · rw [decode_op6 h, Dir.ofCode_eq, dirField_toNat]
  · rw [← codeField_toNat, ne_eq, ← FaultCode.ofCode_eq_none] at h7
    obtain ⟨code, hcode⟩ := Option.ne_none_iff_exists'.mp h7
    exact ⟨code, decode_op7 h hcode, by rw [FaultCode.code_of_ofCode hcode, codeField_toNat]⟩

/-! ## The reserved words (R91, R92) -/

/-- R91: the words refused for their `op`. -/
theorem decode_eq_reservedOp_iff {w : Word} :
    decode w = .error (.reservedOp (opField w)) ↔ (opField w).toNat = 0 ∨ 8 ≤ (opField w).toNat := by
  refine ⟨fun h => ?_, decode_reservedOp⟩
  obtain ⟨hop, -⟩ | ⟨-, -, he⟩ := decode_error_cases h
  · exact hop
  · cases he

/-- R92: the words refused for their fault code. -/
theorem decode_eq_reservedFaultCode_iff {w : Word} :
    decode w = .error .reservedFaultCode ↔ (opField w).toNat = 7 ∧ (codeField w).toNat = 7 := by
  refine ⟨fun h => ?_, fun ⟨hop, hcode⟩ => decode_op7_reserved hop hcode⟩
  obtain ⟨-, he⟩ | ⟨hop, hcode, -⟩ := decode_error_cases h
  · cases he
  · exact ⟨hop, hcode⟩

theorem legalWord_iff {w : Word} : legalWord w = true ↔
    1 ≤ w.toNat / 2 ^ 28 ∧ w.toNat / 2 ^ 28 ≤ 7 ∧ ¬ (w.toNat / 2 ^ 28 = 7 ∧ w.toNat % 8 = 7) := by
  simp [legalWord, and_assoc, imp_iff_not_or]

/-- R91, R92: the words the decoder accepts are legal: it refuses every other word. -/
theorem legalWord_of_decode_ok {w : Word} {i : Instr} (h : decode w = .ok i) : legalWord w = true := by
  have hop : ¬ decode w = .error (.reservedOp (opField w)) := by simp [h]
  have hcode : ¬ decode w = .error .reservedFaultCode := by simp [h]
  rw [decode_eq_reservedOp_iff, opField_toNat] at hop
  rw [decode_eq_reservedFaultCode_iff, opField_toNat, codeField_toNat] at hcode
  exact legalWord_iff.mpr (by omega)

/-- Settles O6: `legalWord` is what remains when the two kinds of reserved word are taken out. -/
theorem exactlyTheReservedWordsAreRefused : Obligations.ExactlyTheReservedWordsAreRefused := by
  unfold Obligations.ExactlyTheReservedWordsAreRefused
  intro w
  simp only [← opField_toNat, ← codeField_toNat]
  exact ⟨decode_eq_reservedOp_iff, decode_eq_reservedFaultCode_iff,
    fun ⟨_, h⟩ => legalWord_of_decode_ok h, decode_ok_of_legalWord⟩

/-! ## The opcode table (R83) -/

/-- R83: every row's mask is that of bits 31:28 and its match has no other bit set. -/
theorem opcodeTable_rows : ∀ row ∈ opcodeTable,
    row.opMask.toNat = 15 * 2 ^ 28 + (2 ^ 0 - 1) ∧ row.opMatch.toNat % 2 ^ 28 = 0 := by
  decide

/-- R83: a word meets a row exactly when its `op` is the row's. -/
theorem meets_row_iff (w : Word) {row : OpcodeRow} (h : row ∈ opcodeTable) :
    w &&& row.opMask = row.opMatch ↔ w.toNat / 2 ^ 28 = row.opMatch.toNat / 2 ^ 28 := by
  obtain ⟨hmask, hmatch⟩ := opcodeTable_rows row h
  rw [BitVec.toNat_eq, BitVec.toNat_and, hmask, and_opMask w.isLt (Nat.zero_le _)]
  omega

/-- R83: a row is an operation's own exactly when its match is the operation's code. -/
theorem row_mnemonic_iff (i : Instr) :
    ∀ row ∈ opcodeTable, row.opMatch.toNat / 2 ^ 28 = opOf i ↔ row.mnemonic = i.mnemonic := by
  cases i <;> simp only [opOf, Instr.mnemonic, opcodeTable] <;> decide

/-- Settles O7: a decoded word's `op` is its operation's code, which stands in one row only. -/
theorem decodedWordMeetsItsOpcodeRowAlone : Obligations.DecodedWordMeetsItsOpcodeRowAlone := by
  unfold Obligations.DecodedWordMeetsItsOpcodeRowAlone
  intro w i h row hrow
  obtain ⟨hop, -⟩ := decode_eq_ok_iff.mp h
  rw [meets_row_iff w hrow, hop, eq_comm, row_mnemonic_iff i row hrow]

/-- Settles O1: each word is evaluated. -/
theorem specEncodingsDecode : Obligations.SpecEncodingsDecode := by
  unfold Obligations.SpecEncodingsDecode
  decide

end Sys2Proof
end

section
/-! The step (spec/30_encoding.md R80, R91, R92, R96): what it does with a decoded word, with a reserved word and with no
word, and the two moves of CYC (spec/44_system.md R250). -/

namespace Sys2Proof.Machine

variable {α : Type}

/-- Settles O8: the host's next move keeps the registers and the events. -/
theorem stepPerformsTheDecodedOperation : Obligations.StepPerformsTheDecodedOperation := by
  unfold Obligations.StepPerformsTheDecodedOperation
  intro s t i hv hd ht
  rw [exec_eq] at ht
  injection ht with ht
  subst ht
  refine ⟨_, step_of_decode hv hd, State.advanceHost_regs _, State.advanceHost_events _, fun h => ?_, fun w rest h => ?_⟩
  · rw [State.advanceHost_of_nil h]
    exact ⟨rfl, h⟩
  · rw [State.advanceHost_of_cons h]
    exact ⟨rfl, rfl⟩

/-- Settles O9: the host's next move keeps the registers, and the idle step's event list is empty. -/
theorem noCommandChangesNothing : Obligations.NoCommandChangesNothing := by
  unfold Obligations.NoCommandChangesNothing
  intro s hv
  exact ⟨_, step_of_idle hv, State.advanceHost_regs _, State.advanceHost_events _⟩

/-- Settles O10: a step refuses what `decode` refuses. -/
theorem reservedWordHasNoStep : Obligations.ReservedWordHasNoStep := by
  unfold Obligations.ReservedWordHasNoStep
  intro s hv
  simp only [← opField_toNat, ← codeField_toNat]
  exact ⟨fun hop => step_of_error hv (decode_reservedOp hop),
    fun hop hcode => step_of_error hv (decode_op7_reserved hop hcode)⟩

/-- R80, R97: with the word of an operation presented, a step performs it, and then the host makes its next move. -/
theorem step_of_encode {s : State} {i : Instr} (hv : s.wires.cmdValid = true) (hc : s.wires.cmd = encode i) :
    step s = .next (s.perform (operate Config.num Config.cfg i)).advanceHost :=
  step_of_decode hv (by rw [hc, decode_encode])

/-- R250, R96 (decision D19): the ports of the second move of `CYC`, its `in_theta` and `in_speed` wired to the sensor. -/
theorem samplePorts_cyc {c : Cfg α} (hc : c.speedFb = .rpm) (w : Wires α) (word : Word) (ia ib ic id : α) (r : Regs α) :
    samplePorts c { w.present word with
      inIA := ia, inIB := ib, inIC := ic, inID := id, inTheta := .sensor, inSpeed := .sensor } r =
    { inRef := w.inRef, inAct := w.inAct, inBeta := w.inBeta, inMeas := w.inMeas,
      inIA := ia, inIB := ib, inIC := ic, inID := id, inTheta := r.ps.theta, inSpeed := r.ps.rpm } := by
  simp only [samplePorts, Wires.present, thetaPort, speedPort, speedOutput, hc]

/-- Settles O53: after the first step the wires are the second move's, whose `in_theta` and `in_speed` carry the sensor
registers that the `PSR` wrote. -/
theorem cycFeedsTheSelectorFromTheSensor : Obligations.CycFeedsTheSelectorFromTheSensor := by
  unfold Obligations.CycFeedsTheSelectorFromTheSensor
  intro s w m₁ m₂ rest raw dir dial ia ib ic id hm hw hh
  obtain ⟨h₁, h₂⟩ : s.wires = w.present (encode (.psr raw)) ∧ _ = m₂ := by
    simpa only [cycMoves, List.cons.injEq, and_true, ← hw, eq_comm] using hm
  have read := step_of_encode (i := .psr raw) (s := s) (by rw [h₁]; rfl) (by rw [h₁]; rfl)
  rw [State.advanceHost_of_cons (by rw [State.perform_host, hh])] at read
  set t := s.perform (operate Config.num Config.cfg (.psr raw))
  have select : step { t with wires := m₂, host := rest } = _ :=
    step_of_encode (i := .css dir dial) (by rw [← h₂]; rfl) (by rw [← h₂]; rfl)
  refine ⟨t, _, exec_eq _ s, (run_succ_next read).trans (run_succ_next select), ?_⟩
  rw [State.advanceHost_regs, State.advanceHost_events]
  show cssOp Config.num Config.cfg dir dial (samplePorts Config.cfg m₂ t.regs) t.regs = _
  rw [← h₂, samplePorts_cyc Config.cfg_speedFb]

end Sys2Proof.Machine
end

section
/-! The PositionSensor (spec/40_position_sensor.md R110 to R123): what a read makes of the raw word and of the registers
before it, the estimator over the reals, and what initialisation leaves. -/

namespace Sys2Proof.Machine

variable {α : Type}

/-! ## The counts (R111 to R114) -/

/-- R111, R113: the halves agree exactly when the two 12-bit numbers of the raw word do. -/
theorem rawLower_eq_rawUpper_iff {raw : RawWord} :
    rawLower raw = rawUpper raw ↔ raw.toNat % 4096 = raw.toNat / 4096 := by
  rw [← BitVec.toNat_inj, rawLower_toNat, rawUpper_toNat]
  exact Iff.rfl

/-- R113: a read whose halves agree renews both counts. -/
theorem readCounts_of_eq (c : Cfg α) {raw : RawWord} (h : rawLower raw = rawUpper raw) (ps : PsRegs α) :
    readCounts c raw ps = (rawLower raw, alignedCount c (rawLower raw)) := by
  simp [readCounts, h]

/-- R114: masking with `POS_MASK` is reduction modulo 4096. -/
theorem alignedCount_toNat (c : Cfg α) (lower : Count) :
    (alignedCount c lower).toNat = (lower.toNat + c.alignOffset) % 4096 := by
  have mask : (lower.toNat + c.alignOffset) &&& posMask = (lower.toNat + c.alignOffset) % 4096 :=
    Nat.and_two_pow_sub_one_eq_mod _ 12
  rw [alignedCount, BitVec.toNat_ofNat, mask, Nat.mod_mod]

/-! ## The registers after a read (R112) -/

section ReadSensor

variable (N : NumOps α) (c : Cfg α) (raw : RawWord) (ps : PsRegs α)

@[simp] theorem readSensor_rawCount : (readSensor N c raw ps).rawCount = (readCounts c raw ps).1 := rfl

@[simp] theorem readSensor_compCount : (readSensor N c raw ps).compCount = (readCounts c raw ps).2 := rfl

@[simp] theorem readSensor_theta : (readSensor N c raw ps).theta = angleOf N (readCounts c raw ps).2 := rfl

@[simp] theorem readSensor_sinPrev : (readSensor N c raw ps).sinPrev = N.sin (angleOf N (readCounts c raw ps).2) := rfl

@[simp] theorem readSensor_cosPrev : (readSensor N c raw ps).cosPrev = N.cos (angleOf N (readCounts c raw ps).2) := rfl

theorem readSensor_wFilt : (readSensor N c raw ps).wFilt =
    lowPass N c ps.wFilt (rawVelocity N c (readSensor N c raw ps).sinPrev (readSensor N c raw ps).cosPrev
      ps.sinPrev ps.cosPrev) := rfl

theorem readSensor_rpm : (readSensor N c raw ps).rpm = rpmOf N (readSensor N c raw ps).wFilt := rfl

end ReadSensor

/-- R112: `PSR` writes the `ps` registers alone and sends nothing. -/
theorem exec_psr (raw : RawWord) (s : State) :
    exec (.psr raw) s = .next { s with
      regs := { s.regs with ps := readSensor Config.num Config.cfg raw s.regs.ps }
      events := [] } := exec_eq (.psr raw) s

/-- Settles O16: the registers are those of `readSensor`, whose counts are renewed or retained by the halves of the word;
the other five are its formulas. -/
theorem psrWritesTheSensorRegistersByTheFormulas : Obligations.PsrWritesTheSensorRegistersByTheFormulas := by
  unfold Obligations.PsrWritesTheSensorRegistersByTheFormulas
  intro raw s
  refine ⟨readSensor Config.num Config.cfg raw s.regs.ps, exec_psr raw s, fun h => ?_, fun h => ?_,
    rfl, rfl, rfl, ⟨_, rfl, rfl⟩, rfl⟩
  · rw [readSensor_rawCount, readSensor_compCount, readCounts_of_eq _ (rawLower_eq_rawUpper_iff.mpr h),
      alignedCount_toNat, rawLower_toNat]
    exact ⟨rfl, rfl⟩
  · rw [readSensor_rawCount, readSensor_compCount, readCounts_of_ne _ (rawLower_eq_rawUpper_iff.not.mpr h)]
    exact ⟨rfl, rfl⟩

/-- Settles O17: the renewed counts are functions of the word, and the angle is a function of the count. -/
theorem acceptedAngleDependsOnTheWordAlone : Obligations.AcceptedAngleDependsOnTheWordAlone := by
  unfold Obligations.AcceptedAngleDependsOnTheWordAlone
  intro raw s s' t t' hraw ht ht'
  rw [exec_psr] at ht ht'
  injection ht with ht
  injection ht' with ht'
  subst ht ht'
  have counts := readCounts_of_eq Config.cfg (rawLower_eq_rawUpper_iff.mpr hraw)
  simp only [readSensor_theta, readSensor_compCount, readSensor_rawCount, counts, and_self]

/-! ## The formulas over the reals (R115 to R119) -/

/-- R115: the angle is the count's share of a full turn. -/
theorem angleOf_real (n : Count) : angleOf realNum n = (n.toNat : ℝ) / 4095 * (2 * Real.pi) := by
  simp only [angleOf, numOfCount, realNum, posRes, Nat.cast_ofNat]
  ring

/-- Settles O18: the count's share `n ÷ 4095` lies between 0 and 1, and is 1 only for 4095. -/
theorem angleReachesTwoPiAtCount4095 : Obligations.AngleReachesTwoPiAtCount4095 := by
  unfold Obligations.AngleReachesTwoPiAtCount4095
  intro n
  have turn_pos : 0 < 2 * Real.pi := Real.two_pi_pos
  have count_le : (n.toNat : ℝ) ≤ 4095 := by exact_mod_cast Nat.le_of_lt_succ n.isLt
  have share_le : (n.toNat : ℝ) / 4095 ≤ 1 := div_le_one_of_le₀ count_le (by norm_num)
  rw [angleOf_real]
  refine ⟨by positivity, mul_le_of_le_one_left turn_pos.le share_le, ?_⟩
  rw [mul_eq_right₀ turn_pos.ne', div_eq_one_iff_eq (by norm_num)]
  norm_cast

/-- R122: the products of R117 that cancel, cancelled. -/
theorem rawVelocity_real (c : Cfg ℝ) (sn cn sinPrev cosPrev : ℝ) :
    rawVelocity realNum c sn cn sinPrev cosPrev = (sn * cosPrev - cn * sinPrev) / c.dt := by
  simp only [rawVelocity, realNum]
  ring

/-- Settles O19: the cancelled form is the sine of a difference, which is at most 1 in magnitude. -/
theorem rawVelocityIsTheSineOfTheAngleStep : Obligations.RawVelocityIsTheSineOfTheAngleStep := by
  unfold Obligations.RawVelocityIsTheSineOfTheAngleStep
  intro c θ θp dt_pos
  rw [rawVelocity_real, ← Real.sin_sub, abs_div, abs_of_pos dt_pos]
  exact ⟨rfl, div_le_div_of_nonneg_right (Real.abs_sin_le_one _) dt_pos.le⟩

/-- R118. -/
theorem lowPass_real (c : Cfg ℝ) (w x : ℝ) : lowPass realNum c w x = w + c.kf * (x - w) := rfl

/-- R119. -/
theorem rpmOf_real (w : ℝ) : rpmOf realNum w = |w| * (60 / (2 * Real.pi)) := rfl

/-- Settles O22: the new value is the point at `KF` of the segment from the old value to the raw velocity (D7). -/
theorem filterMovesTowardTheRawVelocity : Obligations.FilterMovesTowardTheRawVelocity := by
  unfold Obligations.FilterMovesTowardTheRawVelocity
  intro c w x
  rw [lowPass_real, rpmOf_real]
  refine ⟨fun kf_nonneg kf_le => ?_, fun hkf => ?_, fun hkf => ?_, by positivity⟩
  · exact (convex_uIcc w x).add_smul_sub_mem Set.left_mem_uIcc Set.right_mem_uIcc ⟨kf_nonneg, kf_le⟩
  · rw [hkf, one_mul, add_sub_cancel]
  · rw [hkf, zero_mul, add_zero]

/-! ## Reads without a movement (R120, R121) -/

/-- R118: the filter decays while the raw velocity is 0. -/
theorem readSensor_wFilt_of_rawVelocity_zero {c : Cfg ℝ} {raw : RawWord} {ps : PsRegs ℝ}
    (h : rawVelocity realNum c (readSensor realNum c raw ps).sinPrev (readSensor realNum c raw ps).cosPrev
      ps.sinPrev ps.cosPrev = 0) :
    (readSensor realNum c raw ps).wFilt = (1 - c.kf) * ps.wFilt := by
  rw [readSensor_wFilt, h, lowPass_real]
  ring

/-- R121: with the stored sine and cosine 0 no velocity is seen, whatever the angle. -/
theorem readSensor_reset_wFilt (c : Cfg ℝ) (raw : RawWord) :
    (readSensor realNum c raw PsRegs.reset).wFilt = 0 := by
  rw [readSensor_wFilt_of_rawVelocity_zero (by simp [rawVelocity_real, PsRegs.reset])]
  exact mul_zero _

/-- R110, R241. -/
theorem operate_ps_of_init [Zero α] (N : NumOps α) (c : Cfg α) {i : Instr} (h : i = .psi ∨ i = .rst) (p : Ports α)
    (r : Regs α) : (operate N c i p r).1.ps = PsRegs.reset := by
  obtain rfl | rfl := h <;> rfl

/-- R313: a `PSR` after one operation reads on the `ps` registers that operation left. -/
theorem operateAll_psr_second [Zero α] (N : NumOps α) (c : Cfg α) (i : Instr) (raw : RawWord) (p q : Ports α)
    (r : Regs α) :
    (operateAll N c [(i, p), (.psr raw, q)] r).1.ps = readSensor N c raw (operate N c i p r).1.ps := rfl

/-- Settles O20: `PSI` and `RST` leave the reset registers, on which a read filters 0. -/
theorem firstReadAfterInitReportsZeroVelocity : Obligations.FirstReadAfterInitReportsZeroVelocity := by
  unfold Obligations.FirstReadAfterInitReportsZeroVelocity
  intro c i raw p q r hi
  rw [operateAll_psr_second, operate_ps_of_init _ _ hi, readSensor_rpm, readSensor_reset_wFilt, rpmOf_real, abs_zero,
    zero_mul]
  exact ⟨rfl, rfl⟩

/-- R120: a rejected read after a read evaluates the same angle again: it keeps it, and the filter decays. -/
theorem readSensor_rejected_after_read {raw₂ : RawWord} (h : rawLower raw₂ ≠ rawUpper raw₂) (c : Cfg ℝ)
    (raw₁ : RawWord) (ps : PsRegs ℝ) :
    (readSensor realNum c raw₂ (readSensor realNum c raw₁ ps)).theta = (readSensor realNum c raw₁ ps).theta ∧
    (readSensor realNum c raw₂ (readSensor realNum c raw₁ ps)).wFilt =
      (1 - c.kf) * (readSensor realNum c raw₁ ps).wFilt := by
  have retained := readCounts_of_ne c h (readSensor realNum c raw₁ ps)
  refine ⟨by rw [readSensor_theta, retained]; rfl, readSensor_wFilt_of_rawVelocity_zero ?_⟩
  simp only [rawVelocity_real, readSensor_sinPrev, readSensor_cosPrev, readSensor_compCount, retained]
  ring

/-- Settles O21: the first `PSR` leaves the registers of a read. -/
theorem rejectedSampleDecaysTheFilter : Obligations.RejectedSampleDecaysTheFilter := by
  unfold Obligations.RejectedSampleDecaysTheFilter
  intro c raw₁ raw₂ p q r hraw
  rw [operateAll_psr_second]
  exact readSensor_rejected_after_read (rawLower_eq_rawUpper_iff.not.mpr hraw) c raw₁ r.ps

/-! ## Initialisation (R110) -/

/-- Settles O15: `PSI` performs the write of the reset `ps` registers. -/
theorem psiZeroesTheSensorRegistersAlone : Obligations.PsiZeroesTheSensorRegistersAlone := by
  unfold Obligations.PsiZeroesTheSensorRegistersAlone
  exact exec_eq .psi

end Sys2Proof.Machine
end

section
/-! The HysteresisCurrentController (spec/41_hysteresis.md R140 to R146): the switch decision test by test, the registers
`HCE` writes, and the comparator over the reals. -/

namespace Sys2Proof.Machine

variable {α : Type}

/-! ## The switch decision (R141, R143) -/

section SwitchDecision

variable {N : NumOps α} {upper lower act : α} {prev : Switch}

/-- R143: the force-off test is made first, so that the lower limit does not matter. -/
theorem switchDecision_of_upper_le (h : N.le upper act = true) : switchDecision N upper lower act prev = .off := by
  simp [switchDecision, h]

theorem switchDecision_of_le_lower (hu : N.le upper act = false) (hl : N.le act lower = true) :
    switchDecision N upper lower act prev = .on := by
  simp [switchDecision, hu, hl]

theorem switchDecision_of_between (hu : N.le upper act = false) (hl : N.le act lower = false) :
    switchDecision N upper lower act prev = prev := by
  simp [switchDecision, hu, hl]

end SwitchDecision

/-! ## The operation (R142) -/

/-- R142: `HCE` writes the `hc` registers alone and sends nothing. -/
theorem exec_hce (prev : Switch) (s : State) :
    exec (.hce prev) s = .next { s with
      regs := { s.regs with hc := comparator Config.num s.wires.inRef s.wires.inAct s.wires.inBeta prev }
      events := [] } := exec_eq (.hce prev) s

/-- Settles O23: the registers are the comparator's on the three levels, whose `out` is the switch decision. -/
theorem hceComparesTheCurrentWithTheBand : Obligations.HceComparesTheCurrentWithTheBand := by
  unfold Obligations.HceComparesTheCurrentWithTheBand
  intro prev s
  exact ⟨_, exec_hce prev s, rfl, rfl, switchDecision_of_upper_le, switchDecision_of_le_lower,
    switchDecision_of_between⟩

/-! ## The comparator over the reals (R145) -/

section Real

variable {ref act act' beta : ℝ} {prev : Switch}

/-- R145 (1), for any band: the force-off test is made first (R143). -/
theorem comparator_real_out_of_upper_le (h : ref + beta ≤ act) : (comparator realNum ref act beta prev).out = .off :=
  switchDecision_of_upper_le (decide_eq_true h)

/-- R145 (1): below the band the force-off test has failed. -/
theorem comparator_real_out_of_le_lower (hu : act < ref + beta) (hl : act ≤ ref - beta) :
    (comparator realNum ref act beta prev).out = .on :=
  switchDecision_of_le_lower (decide_eq_false hu.not_ge) (decide_eq_true hl)

/-- R145 (2). -/
theorem comparator_real_out_of_between (hl : ref - beta < act) (hu : act < ref + beta) :
    (comparator realNum ref act beta prev).out = prev :=
  switchDecision_of_between (decide_eq_false hu.not_ge) (decide_eq_false hl.not_ge)

/-- R145 (1), (2): the output is off at or above the upper limit, and above the lower one when it was off before. -/
theorem comparator_real_out_eq_off_iff :
    (comparator realNum ref act beta prev).out = .off ↔ ref + beta ≤ act ∨ ref - beta < act ∧ prev = .off := by
  rcases le_or_gt (ref + beta) act with hu | hu
  · simp [comparator_real_out_of_upper_le hu, hu]
  · rcases le_or_gt act (ref - beta) with hl | hl
    · simp [comparator_real_out_of_le_lower hu hl, hu.not_ge, hl.not_gt]
    · simp [comparator_real_out_of_between hl hu, hu.not_ge, hl]

/-- R145 (3), for any band: both ways of being off persist as the current rises. -/
theorem comparator_real_off_mono (hle : act ≤ act') (h : (comparator realNum ref act beta prev).out = .off) :
    (comparator realNum ref act' beta prev).out = .off := by
  rw [comparator_real_out_eq_off_iff] at h ⊢
  exact h.imp hle.trans' (And.imp_left hle.trans_lt')

/-- R145 (4), for any band. -/
theorem comparator_real_upper_sub_lower :
    (comparator realNum ref act beta prev).upper - (comparator realNum ref act beta prev).lower = 2 * beta := by
  simp only [comparator, realNum]
  ring

end Real

/-- Settles O24: with a positive band a current at or below the lower limit is below the upper one, so that the force-off
test fails there. -/
theorem comparatorLawsOverTheReals : Obligations.ComparatorLawsOverTheReals := by
  unfold Obligations.ComparatorLawsOverTheReals
  intro ref act act' beta prev beta_pos
  have lower_lt_upper : ref - beta < ref + beta := by linarith
  exact ⟨comparator_real_out_of_upper_le,
    fun hl => comparator_real_out_of_le_lower (hl.trans_lt lower_lt_upper) hl,
    comparator_real_out_of_between, comparator_real_off_mono, comparator_real_upper_sub_lower⟩

end Sys2Proof.Machine
end

section
/-! The CommutationSelector in CONTROL (spec/42_commutation.md R164 to R190): what steps (c) and (e) and the whole arm leave
in each register, and the decimation of the PI controller. -/

namespace Sys2Proof.Machine

variable {α : Type}

/-! ## Step (c) (R172 to R178) -/

section ReferenceStep

variable (N : NumOps α) (c : Cfg α) (dial : Count) (p : Ports α) (r : Regs α)

@[simp] theorem referenceStep_state : (referenceStep N c dial p r).cs.state = r.cs.state := by
  obtain ⟨cnt, iRef, speedRef, hcs⟩ := referenceStep_cs N c dial p r
  rw [hcs]

@[simp] theorem referenceStep_sw : (referenceStep N c dial p r).cs.sw = r.cs.sw := by
  obtain ⟨cnt, iRef, speedRef, hcs⟩ := referenceStep_cs N c dial p r
  rw [hcs]

@[simp] theorem referenceStep_active : (referenceStep N c dial p r).cs.active = r.cs.active := by
  obtain ⟨cnt, iRef, speedRef, hcs⟩ := referenceStep_cs N c dial p r
  rw [hcs]

@[simp] theorem referenceStep_boot : (referenceStep N c dial p r).cs.boot = r.cs.boot := by
  obtain ⟨cnt, iRef, speedRef, hcs⟩ := referenceStep_cs N c dial p r
  rw [hcs]

/-- R178, R190: without a tick, whatever the mode, step (c) writes no `pi` register. -/
theorem referenceStep_pi_of_noTick {r : Regs α} (hn : r.cs.cnt.toNat + 1 < c.speedRate) :
    (referenceStep N c dial p r).pi = r.pi := by
  cases hm : c.mode with
  | current => rw [referenceStep_current hm]; rfl
  | speed => rw [referenceStep_noTick hm _ _ _ _ hn]

/-- R173: in speed mode the mapped dial becomes the speed reference, on a tick and between ticks. -/
theorem referenceStep_speedRef {c : Cfg α} (hm : c.mode = .speed) :
    (referenceStep N c dial p r).cs.speedRef = speedReference N c dial := by
  rcases le_or_gt c.speedRate (r.cs.cnt.toNat + 1) with due | notDue
  · rw [referenceStep_tick hm _ _ _ _ due]
  · rw [referenceStep_noTick hm _ _ _ _ notDue]

end ReferenceStep

/-! ## Step (e) (R181 to R189): the registers it leaves alone -/

section DriveStep

variable (N : NumOps α) (c : Cfg α) (found : Option (TableEntry α)) (p : Ports α) (r : Regs α)

@[simp] theorem driveStep_pi : (driveStep N c found p r).1.pi = r.pi := by cases found <;> rfl

@[simp] theorem driveStep_state : (driveStep N c found p r).1.cs.state = r.cs.state := by cases found <;> rfl

@[simp] theorem driveStep_cnt : (driveStep N c found p r).1.cs.cnt = r.cs.cnt := by cases found <;> rfl

@[simp] theorem driveStep_iRef : (driveStep N c found p r).1.cs.iRef = r.cs.iRef := by cases found <;> rfl

@[simp] theorem driveStep_speedRef : (driveStep N c found p r).1.cs.speedRef = r.cs.speedRef := by cases found <;> rfl

@[simp] theorem driveStep_thetaCtl : (driveStep N c found p r).1.cs.thetaCtl = r.cs.thetaCtl := by cases found <;> rfl

@[simp] theorem driveStep_thetaC : (driveStep N c found p r).1.cs.thetaC = r.cs.thetaC := by cases found <;> rfl

/-- R183, R188: `cs.selValid` reports whether an entry was found. -/
@[simp] theorem driveStep_selValid : (driveStep N c found p r).1.cs.selValid = found.isSome := by cases found <;> rfl

end DriveStep

/-! ## The CONTROL arm (R164) -/

/-- R171, R180, R181: the entry that the walk of a CONTROL invocation finds on the sampled `in_theta`. -/
def foundEntry (N : NumOps α) (c : Cfg α) (dir : Dir) (p : Ports α) : Option (TableEntry α) :=
  tableWalk N c dir (offsetTheta N c dir (wrappedTheta N c p.inTheta))

section Control

variable (N : NumOps α) (c : Cfg α) (dir : Dir) (dial : Count) (p : Ports α) (r : Regs α)

/-- R164: the CONTROL arm is step (e) on the found entry, after steps (b) and (c). -/
theorem cssControl_eq_driveStep :
    cssControl N c dir dial p r = driveStep N c (foundEntry N c dir p) p
      (controlBefore N c dial p (wrappedTheta N c p.inTheta) (offsetTheta N c dir (wrappedTheta N c p.inTheta)) r) := rfl

@[simp] theorem cssControl_pi : (cssControl N c dir dial p r).1.pi = (referenceStep N c dial p r).pi :=
  driveStep_pi ..

@[simp] theorem cssControl_state : (cssControl N c dir dial p r).1.cs.state = r.cs.state :=
  (driveStep_state ..).trans (referenceStep_state ..)

@[simp] theorem cssControl_cnt : (cssControl N c dir dial p r).1.cs.cnt = (referenceStep N c dial p r).cs.cnt :=
  driveStep_cnt ..

@[simp] theorem cssControl_iRef : (cssControl N c dir dial p r).1.cs.iRef = (referenceStep N c dial p r).cs.iRef :=
  driveStep_iRef ..

@[simp] theorem cssControl_speedRef :
    (cssControl N c dir dial p r).1.cs.speedRef = (referenceStep N c dial p r).cs.speedRef :=
  driveStep_speedRef ..

@[simp] theorem cssControl_thetaCtl : (cssControl N c dir dial p r).1.cs.thetaCtl = wrappedTheta N c p.inTheta :=
  driveStep_thetaCtl ..

@[simp] theorem cssControl_thetaC :
    (cssControl N c dir dial p r).1.cs.thetaC = offsetTheta N c dir (wrappedTheta N c p.inTheta) :=
  driveStep_thetaC ..

@[simp] theorem cssControl_selValid : (cssControl N c dir dial p r).1.cs.selValid = (foundEntry N c dir p).isSome :=
  driveStep_selValid ..

end Control

/-! ## Decimation (R176 to R178) -/

section Decimation

variable [Zero α] {N : NumOps α} {c : Cfg α}

/-- R176: a counter below `SPEED_RATE` advances modulo `SPEED_RATE` in a speed-mode step (c). -/
theorem referenceStep_cnt_toNat (hok : c.ok N) (hm : c.mode = .speed) (dial : Count) (p : Ports α) {r : Regs α}
    (hr : r.cs.cnt.toNat < c.speedRate) :
    (referenceStep N c dial p r).cs.cnt.toNat = (r.cs.cnt.toNat + 1) % c.speedRate := by
  obtain ⟨-, -, -, -, rate_lt, -⟩ := hok
  by_cases hn : c.speedRate ≤ r.cs.cnt.toNat + 1
  · have top : r.cs.cnt.toNat + 1 = c.speedRate := by omega
    rw [referenceStep_tick hm _ _ _ _ hn, top, Nat.mod_self]
    rfl
  · have below : r.cs.cnt.toNat + 1 < c.speedRate := by omega
    rw [referenceStep_noTick hm _ _ _ _ below, Nat.mod_eq_of_lt below]
    exact count_toNat below rate_lt

/-- The registers after a list of CSS invocations, each with its operands and the ports it samples. -/
def cssCalls (N : NumOps α) (c : Cfg α) (calls : List (Dir × Count × Ports α)) (r : Regs α) : Regs α :=
  (operateAll N c (calls.map fun x => (.css x.1 x.2.1, x.2.2)) r).1

theorem cssCalls_cons_of_control (dir : Dir) (dial : Count) (p : Ports α) (calls : List (Dir × Count × Ports α))
    {r : Regs α} (hs : r.cs.state = .control) :
    cssCalls N c ((dir, dial, p) :: calls) r = cssCalls N c calls (cssControl N c dir dial p r).1 := by
  rw [← cssOp_control N c dir dial p hs]
  rfl

/-- R176, R178: from any counter below `SPEED_RATE`, a list of speed-mode CONTROL invocations advances the counter by its
length modulo `SPEED_RATE`; while the sum stays below `SPEED_RATE` no tick has come. -/
theorem cssCalls_decimation (hok : c.ok N) (hm : c.mode = .speed) (calls : List (Dir × Count × Ports α)) {r : Regs α}
    (hs : r.cs.state = .control) (hr : r.cs.cnt.toNat < c.speedRate) :
    (cssCalls N c calls r).cs.cnt.toNat = (r.cs.cnt.toNat + calls.length) % c.speedRate ∧
    (cssCalls N c calls r).cs.state = .control ∧
    (r.cs.cnt.toNat + calls.length < c.speedRate →
      (cssCalls N c calls r).pi = r.pi ∧ (cssCalls N c calls r).cs.iRef = r.cs.iRef) := by
  induction calls generalizing r with
  | nil => exact ⟨(Nat.mod_eq_of_lt hr).symm, hs, fun _ => ⟨rfl, rfl⟩⟩
  | cons call calls ih =>
    obtain ⟨dir, dial, p⟩ := call
    have hcnt := referenceStep_cnt_toNat hok hm dial p hr
    obtain ⟨cnt, state, kept⟩ := @ih (cssControl N c dir dial p r).1 (by rw [cssControl_state, hs])
      (by rw [cssControl_cnt, hcnt]; exact Nat.mod_lt _ (by omega))
    simp only [cssControl_cnt, cssControl_pi, cssControl_iRef, hcnt] at cnt kept
    rw [cssCalls_cons_of_control _ _ _ _ hs, List.length_cons]
    refine ⟨by rw [cnt, Nat.mod_add_mod]; congr 1; omega, state, fun hlt => ?_⟩
    have below : r.cs.cnt.toNat + 1 < c.speedRate := by omega
    obtain ⟨hpi, hiRef⟩ := kept (by rw [Nat.mod_eq_of_lt below]; omega)
    rw [referenceStep_noTick hm _ _ _ _ below] at hpi hiRef
    exact ⟨hpi, hiRef⟩

/-- R176: the same, counted from a counter of 0. -/
theorem cssCalls_decimation_of_zero (hok : c.ok N) (hm : c.mode = .speed) (calls : List (Dir × Count × Ports α))
    {r : Regs α} (hs : r.cs.state = .control) (h0 : r.cs.cnt = 0) :
    (cssCalls N c calls r).cs.cnt.toNat = calls.length % c.speedRate ∧ (cssCalls N c calls r).cs.state = .control ∧
    (calls.length < c.speedRate → (cssCalls N c calls r).pi = r.pi ∧ (cssCalls N c calls r).cs.iRef = r.cs.iRef) := by
  have zero : r.cs.cnt.toNat = 0 := by rw [h0]; rfl
  obtain ⟨-, -, -, rate_pos, -⟩ := id hok
  simpa only [zero, Nat.zero_add] using cssCalls_decimation hok hm calls hs (by omega)

end Decimation

/-- Settles O42: the case of a counter of 0 of the decimation of a list of invocations. -/
theorem decimationCounterIsTheInvocationsModuloSpeedRate :
    Obligations.DecimationCounterIsTheInvocationsModuloSpeedRate := by
  unfold Obligations.DecimationCounterIsTheInvocationsModuloSpeedRate
  rintro α _ N c calls r _ hok hm hs h0 rfl
  exact cssCalls_decimation_of_zero hok hm calls hs h0

/-- R176: with the counter at `n mod rate`, a tick is due exactly when the rate divides `n + 1`. -/
theorem succ_mod_eq_zero_iff {n rate : Nat} (hr : 1 ≤ rate) : (n + 1) % rate = 0 ↔ rate ≤ n % rate + 1 := by
  have cnt_lt : n % rate < rate := Nat.mod_lt n hr
  rw [← Nat.mod_add_mod]
  constructor
  · intro h
    exact Nat.le_of_dvd (Nat.succ_pos _) (Nat.dvd_of_mod_eq_zero h)
  · intro h
    rw [show n % rate + 1 = rate by omega, Nat.mod_self]

/-- Settles O43: the counter before the invocation is `n mod SPEED_RATE`, which decides whether step (c) takes its tick. -/
theorem everyNthInvocationRunsThePiController : Obligations.EveryNthInvocationRunsThePiController := by
  unfold Obligations.EveryNthInvocationRunsThePiController
  intro α _ N c calls dir dial p r r' r'' ev hok hm hs h0 hr' h
  change r' = cssCalls N c calls r at hr'
  obtain ⟨cnt, state, -⟩ := hr' ▸ cssCalls_decimation_of_zero hok hm calls hs h0
  obtain ⟨-, -, -, rate_pos, -⟩ := id hok
  rw [operate, cssOp_control _ _ _ _ _ state] at h
  obtain rfl : (cssControl N c dir dial p r').1 = r'' := congrArg Prod.fst h
  rw [ne_eq, succ_mod_eq_zero_iff rate_pos, ← cnt, not_le, cssControl_pi, cssControl_iRef]
  constructor
  · intro due
    rw [referenceStep_tick hm _ _ _ _ due]
    exact ⟨rfl, rfl⟩
  · intro notDue
    rw [referenceStep_noTick hm _ _ _ _ notDue]
    exact ⟨rfl, rfl⟩

end Sys2Proof.Machine
end

section
/-! CSS in CONTROL, the statements (spec/42_commutation.md R171 to R190): the angles, the reference, the entry driven and the
events sent, the frame, and the ports that cannot matter. -/

namespace Sys2Proof.Machine

variable {α : Type}

/-! ## What the found entry decides (R183, R185 to R189) -/

theorem demagnetizeOthers_eq_map (q : Phase) :
    demagnetizeOthers q = (([.a, .b, .c, .d] : List Phase).filter (· ≠ q)).map (⟨·, .demagnetize⟩) := by
  cases q <;> rfl

theorem driveCmd_eq_ite (sw : Switch) : driveCmd sw = if sw = .on then .magnetize else .freewheel := by
  cases sw <;> rfl

/-- R180, R181: entry `k` of the direction's table matches on the sampled `in_theta`. -/
def entryMatches (N : NumOps α) (c : Cfg α) (dir : Dir) (p : Ports α) (k : Fin 4) : Bool :=
  thresholdMatch N dir (offsetTheta N c dir (wrappedTheta N c p.inTheta)) (c.table dir)[k].off

section Found

variable {N : NumOps α} {c : Cfg α} {dir : Dir} {dial : Count} {p : Ports α} {r : Regs α} {e : TableEntry α}

/-- R181, R182: the first matching entry is found. -/
theorem foundEntry_of_first {k : Fin 4} (hit : entryMatches N c dir p k = true)
    (first : ∀ j : Fin 4, j < k → entryMatches N c dir p j = false) :
    foundEntry N c dir p = some (c.table dir)[k] := tableWalk_eq_some.mpr ⟨k, rfl, hit, first⟩

theorem foundEntry_of_no_match (miss : ∀ k : Fin 4, entryMatches N c dir p k = false) :
    foundEntry N c dir p = none := tableWalk_eq_none.mpr miss

/-- R185 to R189: the registers that step (e) writes when an entry is found, and the five events. -/
theorem cssControl_of_found (h : foundEntry N c dir p = some e) :
    ∃ t ev, cssControl N c dir dial p r = (t, ev) ∧ t.cs.selValid = true ∧
      t.cs.active = e.phase ∧ t.cs.boot = e.boot ∧
      t.hc = comparator N t.cs.iRef (p.current e.phase) c.hystBand r.cs.sw ∧ t.cs.sw = t.hc.out ∧
      ev = demagnetizeOthers e.phase ++ [⟨e.phase, driveCmd t.hc.out⟩, ⟨e.boot, .chargeBootstrapCapacitor⟩] := by
  rw [cssControl_eq_driveStep, h]
  refine ⟨_, _, rfl, rfl, rfl, rfl, ?_, rfl, rfl⟩
  simp [controlBefore]

/-- R183: with no entry found, step (e) writes `cs.selValid` alone, and every phase is demagnetized. -/
theorem cssControl_of_notFound (h : foundEntry N c dir p = none) :
    ∃ t ev, cssControl N c dir dial p r = (t, ev) ∧ t.cs.selValid = false ∧
      t.cs.active = r.cs.active ∧ t.cs.boot = r.cs.boot ∧
      t.cs.sw = r.cs.sw ∧ t.hc = r.hc ∧ ev = demagnetizeAll := by
  rw [cssControl_eq_driveStep, h]
  refine ⟨_, _, rfl, rfl, ?_⟩
  simp [controlBefore]

end Found

/-! ## `exec` in CONTROL -/

/-- R161, R164: in CONTROL, `CSS` performs the CONTROL arm. -/
theorem exec_css_control (dir : Dir) (dial : Count) {s : State} (hs : s.regs.cs.state = .control) :
    exec (.css dir dial) s = .next (s.perform (cssControl Config.num Config.cfg dir dial)) := by
  rw [exec_eq]
  simp only [State.perform, operate, cssOp_control _ _ _ _ _ hs]

/-- Settles O32: both registers are wrapped values, of which R10 says the range and the multiple. -/
theorem cssInControlWrapsTheAngle : Obligations.CssInControlWrapsTheAngle := by
  unfold Obligations.CssInControlWrapsTheAngle
  intro dir dial s hs
  have wrap := floorMod_ctrlTheta Config.num_flooredModulo Config.cfg_ok
  refine ⟨_, (samplePorts Config.cfg s.wires s.regs).inTheta, _, exec_css_control dir dial hs,
    fun _ => samplePorts_inTheta_level, samplePorts_inTheta_sensor, rfl, ?_⟩
  simp only [State.perform_regs, cssControl_thetaCtl, cssControl_thetaC]
  cases dir <;> exact ⟨rfl, rfl, (wrap _).1, (wrap _).1, (wrap _).2, (wrap _).2⟩

/-- Settles O33, by the mode and, in speed mode, by whether a tick is due. -/
theorem cssInControlSelectsTheReference : Obligations.CssInControlSelectsTheReference := by
  unfold Obligations.CssInControlSelectsTheReference
  intro dir dial s hs
  refine ⟨_, _, exec_css_control dir dial hs, rfl, ?_⟩
  simp only [State.perform_regs, cssControl_iRef, cssControl_pi, cssControl_cnt, cssControl_speedRef]
  split
  next hm =>
    rw [referenceStep_current hm]
    exact ⟨rfl, rfl, rfl, rfl⟩
  next hm =>
    refine ⟨referenceStep_speedRef _ _ _ _ hm, fun due => ?_, fun notDue => ?_⟩
    · rw [referenceStep_tick hm _ _ _ _ due]
      refine ⟨rfl, ?_, rfl⟩
      cases hw : s.wires.inSpeed with
      | level x => rw [samplePorts_inSpeed_level hw]
      | sensor => rw [samplePorts_inSpeed_sensor Config.cfg_speedFb hw]
    · obtain ⟨-, -, -, -, rate_lt, -⟩ := Config.cfg_ok
      rw [referenceStep_noTick hm _ _ _ _ notDue]
      exact ⟨count_toNat notDue rate_lt, rfl, rfl⟩

/-- Settles O34: the hits are the table's tests on the re-wrapped angle, which decide the entry that is found. -/
theorem cssInControlDrivesTheFirstMatchingEntry : Obligations.CssInControlDrivesTheFirstMatchingEntry := by
  unfold Obligations.CssInControlDrivesTheFirstMatchingEntry
  intro dir dial s hs
  refine ⟨_, entryMatches Config.num Config.cfg dir (samplePorts Config.cfg s.wires s.regs),
    exec_css_control dir dial hs, fun k => ?_, fun k hit first => ?_, fun miss => ?_⟩
  · rw [State.perform_regs, cssControl_thetaC]
    cases dir <;> rfl
  · obtain ⟨t, ev, ht, valid, active, boot, hc, sw, events⟩ :=
      cssControl_of_found (dial := dial) (r := s.regs) (foundEntry_of_first hit first)
    simp only [State.perform_regs, State.perform_events, ht]
    refine ⟨valid, active, boot, ?_, sw, ?_⟩
    · rw [hc, active]
      cases (Config.cfg.table dir)[k].phase <;> rfl
    · rw [events, demagnetizeOthers_eq_map, driveCmd_eq_ite, active, boot]
  · obtain ⟨t, ev, ht, valid, active, boot, sw, hc, events⟩ :=
      cssControl_of_notFound (dial := dial) (r := s.regs) (foundEntry_of_no_match miss)
    simp only [State.perform_regs, State.perform_events, ht]
    exact ⟨valid, active, boot, sw, hc, events⟩

/-! ## Over any NUM and CFG: the frame and the events (R187 to R190) -/

/-- Settles O35: step (c) has the frame for `pi`, `cs.cnt` and `cs.speedRef`, step (e) without an entry the other one. -/
theorem cssInControlLeavesTheRestAlone : Obligations.CssInControlLeavesTheRestAlone := by
  unfold Obligations.CssInControlLeavesTheRestAlone
  intro α _ N c dir dial p r r' ev hs h
  rw [operate, cssOp_control _ _ _ _ _ hs] at h
  obtain rfl : (cssControl N c dir dial p r).1 = r' := congrArg Prod.fst h
  simp only [cssControl_state, cssControl_fault, cssControl_ps, cssControl_pi, cssControl_cnt, cssControl_speedRef,
    cssControl_selValid]
  refine ⟨hs, trivial, trivial, fun hm => ?_, referenceStep_pi_of_noTick N c dial p, fun notFound => ?_⟩
  · rw [referenceStep_current hm]
    exact ⟨rfl, rfl, rfl⟩
  · obtain ⟨t, ev, ht, -, active, boot, sw, hc, -⟩ :=
      cssControl_of_notFound (dial := dial) (r := r) (by simpa using notFound)
    rw [ht]
    exact ⟨sw, active, boot, hc⟩

/-- Settles O36: the five events are those of the found entry; what is sent to the active phase is no Demagnetize. -/
theorem activePhaseIsNeverDemagnetized : Obligations.ActivePhaseIsNeverDemagnetized := by
  unfold Obligations.ActivePhaseIsNeverDemagnetized
  intro α _ N c dir dial p r r' ev hs h valid
  rw [operate, cssOp_control _ _ _ _ _ hs] at h
  obtain ⟨e, found⟩ : ∃ e, foundEntry N c dir p = some e := by
    rwa [← Option.isSome_iff_exists, ← cssControl_selValid N c dir dial p r, h]
  obtain ⟨t, ev', ht, -, active, boot, -, -, events⟩ := cssControl_of_found (dial := dial) (r := r) found
  obtain ⟨rfl, rfl⟩ := Prod.mk.inj (ht.symm.trans h)
  rw [events, active, boot]
  refine ⟨by simp [demagnetizeOthers_length], by simp, fun q => ?_⟩
  simp [mem_demagnetizeOthers, (driveCmd_ne_demagnetize t.hc.out).symm]

/-! ## The currents that are not sampled (R186) -/

/-- R174, R177: step (c) samples `in_speed` in speed mode only. -/
theorem referenceStep_congr_of_speed {N : NumOps α} {c : Cfg α} {p q : Ports α} {r : Regs α} (dial : Count)
    (hspeed : c.mode = .speed → p.inSpeed = q.inSpeed) :
    referenceStep N c dial p r = referenceStep N c dial q r := by
  cases hm : c.mode with
  | speed => exact referenceStep_congr dial (hspeed hm)
  | current => rw [referenceStep_current hm, referenceStep_current hm]

/-- Settles O37: step (e) on a found entry samples the entry's phase current alone. -/
theorem inactiveCurrentsCannotAffectControl : Obligations.InactiveCurrentsCannotAffectControl := by
  unfold Obligations.InactiveCurrentsCannotAffectControl
  intro α _ N c dir dial p q r e hs htheta hspeed hwalk hcur
  have found : foundEntry N c dir p = some e := hwalk
  have found' : foundEntry N c dir q = some e := by rw [← found, foundEntry, foundEntry, htheta]
  simp only [operate, cssOp_control _ _ _ _ _ hs, cssControl_eq_driveStep, found, found', driveStep, driveEntry,
    controlBefore, htheta, hcur, referenceStep_congr_of_speed dial hspeed]

end Sys2Proof.Machine
end

section
/-! The commutation table (spec/10_state.md R45; spec/42_commutation.md R181 to R183) and the maps of angle and dial
(R171 to R180): where an ordered table's entries win, why a covering table always has one, and the dial's spans. -/

namespace Sys2Proof.Machine

variable {α : Type}

/-! ## A covering table (R45, R183) -/

theorem TotalOrder.le_of_lt {N : NumOps α} (hN : TotalOrder N) {x y : α} (h : N.lt x y = true) : N.le x y = true := by
  rw [hN.le_iff, Bool.not_eq_true', ← Bool.not_eq_true]
  intro h'
  simpa [hN.irrefl] using hN.trans x y x h h'

/-- R183: in the control period the last entry of a covering table matches, so that the walk finds an entry. -/
theorem tableWalk_of_covers [Zero α] {N : NumOps α} {c : Cfg α} {dir : Dir} {t : α}
    (le_of_lt : ∀ x y, N.lt x y = true → N.le x y = true)
    (le_trans : ∀ x y z, N.le x y = true → N.le y z = true → N.le x z = true)
    (hcov : c.tableCovers N dir = true) (ht : InControlPeriod N c t) : ∃ e, tableWalk N c dir t = some e := by
  obtain ⟨lower, upper⟩ := ht
  have last : thresholdMatch N dir t (c.table dir)[3].off = true := by
    cases dir with
    | cw => exact le_trans _ _ _ (le_of_lt _ _ upper) hcov
    | ccw => exact le_trans _ _ _ hcov lower
  rw [← Option.ne_none_iff_exists', ne_eq, tableWalk_eq_none]
  intro miss
  exact absurd last (by simpa using miss 3)

/-- Settles O40: both angles are wrapped, and the walk is on the second one. -/
theorem coveringTableAlwaysYieldsAnEntry : Obligations.CoveringTableAlwaysYieldsAnEntry := by
  unfold Obligations.CoveringTableAlwaysYieldsAnEntry
  intro α _ N c dir dial p r r' ev hN le_trans hwrap hok hcov hs h
  rw [operate, cssOp_control _ _ _ _ _ hs] at h
  obtain rfl : (cssControl N c dir dial p r).1 = r' := congrArg Prod.fst h
  have period := offsetTheta_inControlPeriod hwrap hok dir (wrappedTheta N c p.inTheta)
  rw [cssControl_selValid, cssControl_thetaCtl, cssControl_thetaC]
  exact ⟨Option.isSome_iff_exists.mpr (tableWalk_of_covers (fun _ _ => hN.le_of_lt) le_trans hcov period),
    wrappedTheta_inControlPeriod hwrap hok p.inTheta, period⟩

/-! ## The wrapped angle over the reals (R10, R171, R180) -/

/-- R10: over the reals `wrap` is the fractional part of the quotient, scaled back. -/
theorem floorMod_real {m : ℝ} (hm : 0 < m) (x : ℝ) : realNum.floorMod x m = Int.fract (x / m) * m := by
  simp only [realNum, Int.fract]
  field_simp

theorem inControlPeriod_real {c : Cfg ℝ} {x : ℝ} : InControlPeriod realNum c x ↔ 0 ≤ x ∧ x < c.ctrlTheta := by
  simp [InControlPeriod, realNum]

theorem floorMod_real_inControlPeriod {c : Cfg ℝ} (hc : 0 < c.ctrlTheta) (x : ℝ) :
    InControlPeriod realNum c (realNum.floorMod x c.ctrlTheta) := by
  rw [inControlPeriod_real, floorMod_real hc]
  exact ⟨mul_nonneg (Int.fract_nonneg _) hc.le, mul_lt_of_lt_one_left hc (Int.fract_lt_one _)⟩

/-- R10: a non-negative value is a natural multiple of the modulus plus its wrapped value. -/
theorem eq_natFloor_mul_add_floorMod_real {m x : ℝ} (hm : 0 < m) (hx : 0 ≤ x) :
    x = (⌊x / m⌋₊ : ℝ) * m + realNum.floorMod x m := by
  rw [floorMod_real hm, natCast_floor_eq_intCast_floor (div_nonneg hx hm.le), ← add_mul, Int.floor_add_fract,
    div_mul_cancel₀ x hm.ne']

/-- Settles O39: both angles are wrapped values, and the walk on the second one meets the covering table. -/
theorem wrappedAngleAlwaysMeetsACoveringTable : Obligations.WrappedAngleAlwaysMeetsACoveringTable := by
  unfold Obligations.WrappedAngleAlwaysMeetsACoveringTable
  intro c dir x hc
  have offset := floorMod_real_inControlPeriod hc (realNum.add x (c.thetaOffset dir))
  obtain ⟨lower, upper⟩ := inControlPeriod_real.mp (floorMod_real_inControlPeriod hc x)
  obtain ⟨lower', upper'⟩ := inControlPeriod_real.mp offset
  refine ⟨lower, upper, lower', upper', fun hx => ⟨_, eq_natFloor_mul_add_floorMod_real hc hx⟩, fun hcov => ?_⟩
  refine tableWalk_of_covers (fun x y h => ?_) (fun x y z h h' => ?_) hcov offset
  · simp only [realNum, decide_eq_true_eq] at *
    exact h.le
  · simp only [realNum, decide_eq_true_eq] at *
    exact h.trans h'

/-! ## An ordered table (R45, R182) -/

/-- In a monotone sequence, every earlier term lies below `t` when the preceding one does. -/
theorem forall_lt_iff_forall_pred {β : Type} [Preorder β] {n : ℕ} {f : Fin n → β} (hf : Monotone f) (t : β)
    (k : Fin n) : (∀ j, j < k → f j < t) ↔ ∀ j : Fin n, j.val + 1 = k.val → f j < t := by
  constructor
  · intro h j hj
    exact h j (by omega)
  · intro h j hj
    obtain ⟨pred, hpred⟩ : ∃ pred : Fin n, pred.val + 1 = k.val :=
      ⟨⟨k.val - 1, by omega⟩, Nat.sub_add_cancel (by omega)⟩
    exact (hf (by omega : j ≤ pred)).trans_lt (h pred hpred)

theorem tableOrdered_real_cw {c : Cfg ℝ} :
    c.tableOrdered realNum .cw = true ↔ Monotone fun k : Fin 4 => c.tableCw[k].off := by
  simp [Cfg.tableOrdered, realNum, Fin.monotone_iff_le_succ, Fin.forall_fin_succ, and_assoc]

theorem tableOrdered_real_ccw {c : Cfg ℝ} :
    c.tableOrdered realNum .ccw = true ↔ Antitone fun k : Fin 4 => c.tableCcw[k].off := by
  simp [Cfg.tableOrdered, realNum, Fin.antitone_iff_succ_le, Fin.forall_fin_succ, and_assoc]

theorem thresholdMatch_real_cw {t thr : ℝ} : thresholdMatch realNum .cw t thr = decide (t ≤ thr) := by
  simp [thresholdMatch, realNum]

theorem thresholdMatch_real_ccw {t thr : ℝ} : thresholdMatch realNum .ccw t thr = decide (thr ≤ t) := by
  simp [thresholdMatch, realNum]

/-- Settles O38: an ordered table's earlier entries all miss when the preceding one does; the CCW order is the dual one. -/
theorem orderedTableEntryWinsOnItsInterval : Obligations.OrderedTableEntryWinsOnItsInterval := by
  unfold Obligations.OrderedTableEntryWinsOnItsInterval
  intro c t e
  simp only [tableOrdered_real_cw, tableOrdered_real_ccw, tableWalk_eq_some, thresholdMatch_real_cw,
    thresholdMatch_real_ccw, decide_eq_true_eq, decide_eq_false_iff_not, not_le]
  constructor
  · intro hmono
    have preceding := forall_lt_iff_forall_pred hmono t
    simp only [← preceding]
    rfl
  · intro hanti
    have preceding := forall_lt_iff_forall_pred hanti.dual_right (OrderDual.toDual t)
    simp only [Function.comp_apply, OrderDual.toDual_lt_toDual] at preceding
    simp only [← preceding]
    rfl

/-! ## The dial over the reals (R173 to R175) -/

theorem dialRatio_real (n : Count) : dialRatio realNum n = (n.toNat : ℝ) / 4095 := by
  simp [dialRatio, numOfCount, realNum, dialMax]

theorem dialRatio_real_of_toNat {n : Count} {k : ℕ} (h : n.toNat = k) : dialRatio realNum n = (k : ℝ) / 4095 := by
  rw [dialRatio_real, h]

theorem dialRatio_real_mono {m n : Count} (h : m ≤ n) : dialRatio realNum m ≤ dialRatio realNum n := by
  have : (m.toNat : ℝ) ≤ n.toNat := by exact_mod_cast BitVec.le_def.mp h
  rw [dialRatio_real, dialRatio_real]
  gcongr

theorem dialRatio_real_nonneg (n : Count) : 0 ≤ dialRatio realNum n := by
  rw [dialRatio_real]
  positivity

theorem dialRatio_real_le_one (n : Count) : dialRatio realNum n ≤ 1 := by
  have : (n.toNat : ℝ) ≤ 4095 := by exact_mod_cast Nat.le_of_lt_succ n.isLt
  rw [dialRatio_real]
  linarith

theorem speedReference_real (c : Cfg ℝ) (n : Count) :
    speedReference realNum c n = c.minSpeed + dialRatio realNum n * (c.maxSpeed - c.minSpeed) := rfl

theorem currentReference_real (c : Cfg ℝ) (n : Count) :
    currentReference realNum c n = dialRatio realNum n * c.maxCurrentRef := rfl

/-- Settles O41: both references are affine in the dial's ratio, which rises from 0 to 1. -/
theorem dialMapsAreMonotoneOntoTheirSpans : Obligations.DialMapsAreMonotoneOntoTheirSpans := by
  unfold Obligations.DialMapsAreMonotoneOntoTheirSpans
  intro c m n hspeed hcurrent
  have span : 0 ≤ c.maxSpeed - c.minSpeed := by linarith
  have nonneg := dialRatio_real_nonneg n
  have le_one := dialRatio_real_le_one n
  have zero : dialRatio realNum 0 = 0 := by norm_num [dialRatio_real_of_toNat (n := 0) (k := 0) rfl]
  have one : dialRatio realNum 4095 = 1 := by norm_num [dialRatio_real_of_toNat (n := 4095) (k := 4095) rfl]
  simp only [speedReference_real, currentReference_real, zero, one]
  refine ⟨fun hmn => ?_, ?_, ?_, ?_, ?_, ?_, ?_, ?_, ?_, ?_, ?_⟩
  · have := dialRatio_real_mono hmn
    constructor <;> gcongr
  · linarith [mul_nonneg nonneg span]
  · linarith [mul_le_of_le_one_left span le_one]
  · exact mul_nonneg nonneg hcurrent
  · exact mul_le_of_le_one_left hcurrent le_one
  · ring
  · ring
  · ring
  · ring
  · norm_num [dialRatio_real_of_toNat (n := 819) (k := 819) rfl]
  · norm_num [dialRatio_real_of_toNat (n := 1365) (k := 1365) rfl]

end Sys2Proof.Machine
end

section
/-! The three states of the block (spec/42_commutation.md R161 to R163, R192) and which operations send driver events
(R163, R183, R189, R242, R245). -/

namespace Sys2Proof.Machine

variable {α : Type}

/-! ## The transitions of `cs.state` (R192) -/

/-- R192: the rule's table of transitions. -/
def nextState : Instr → FsmState → FsmState
  | .css _ _, state => if state = .init then .control else state
  | .flt code, state => if code = .none then state else .fault
  | .rst, _ => .init
  | .psi, state | .psr _, state | .hce _, state | .piu, state => state

/-- R163: of all operations `RST` alone leaves FAULT. -/
theorem nextState_fault (i : Instr) : nextState i .fault = .fault ↔ i ≠ .rst := by
  cases i <;> simp [nextState]

theorem fltOp_of_ne {code : FaultCode} (h : code ≠ .none) (p : Ports α) (r : Regs α) :
    fltOp code p r = faultEntry code r := if_neg h

theorem operate_state [Zero α] (N : NumOps α) (c : Cfg α) (i : Instr) (p : Ports α) (r : Regs α) :
    (operate N c i p r).1.cs.state = nextState i r.cs.state := by
  cases i with
  | rst | psi | psr | hce | piu => rfl
  | css dir dial =>
    rw [operate]
    cases hs : r.cs.state with
    | init => rw [cssOp_init _ _ _ _ _ hs]; rfl
    | control => rw [cssOp_control _ _ _ _ _ hs, cssControl_state, hs]; rfl
    | fault => rw [cssOp_fault _ _ _ _ _ hs, hs]; rfl
  | flt code =>
    by_cases hcode : code = .none
    · subst hcode; rfl
    · rw [operate, fltOp_of_ne hcode, nextState, if_neg hcode]; rfl

/-- Settles O46: each operation's transition is the table's. -/
theorem fsmTransitionsAreTheTable : Obligations.FsmTransitionsAreTheTable := by
  unfold Obligations.FsmTransitionsAreTheTable
  refine ⟨rfl, fun i s => ⟨_, exec_eq i s, ?_⟩⟩
  rw [State.perform_regs, operate_state]
  cases i <;> rfl

/-- Settles O30: `CSS` performs the INIT arm. -/
theorem cssInInitZeroesAndEntersControl : Obligations.CssInInitZeroesAndEntersControl := by
  unfold Obligations.CssInInitZeroesAndEntersControl
  intro dir dial s hs
  rw [exec_eq, State.perform, operate, cssOp_init _ _ _ _ _ hs]
  rfl

/-- Settles O31: `CSS` performs the FAULT arm, and the table's row for FAULT has `RST` alone leave it. -/
theorem cssInFaultDoesNothing : Obligations.CssInFaultDoesNothing := by
  unfold Obligations.CssInFaultDoesNothing
  intro s hs
  refine ⟨fun dir dial => ?_, fun i => ⟨_, exec_eq i s, ?_⟩⟩
  · rw [exec_eq, State.perform, operate, cssOp_fault _ _ _ _ _ hs]
  · rw [State.perform_regs, operate_state, hs, nextState_fault]

/-! ## Which operations send events (R163, R183, R189, R242, R245) -/

/-- R183, R189: a CONTROL invocation sends five events when it found an entry, else four. -/
theorem cssControl_events (N : NumOps α) (c : Cfg α) (dir : Dir) (dial : Count) (p : Ports α) (r : Regs α) :
    (cssControl N c dir dial p r).1.cs.selValid = true ∧ (cssControl N c dir dial p r).2.length = 5 ∨
    (cssControl N c dir dial p r).1.cs.selValid = false ∧ (cssControl N c dir dial p r).2.length = 4 := by
  cases found : foundEntry N c dir p with
  | none =>
    obtain ⟨t, ev, ht, valid, -, -, -, -, events⟩ := cssControl_of_notFound (dial := dial) (r := r) found
    rw [ht]
    exact .inr ⟨valid, by rw [events]; rfl⟩
  | some e =>
    obtain ⟨t, ev, ht, valid, -, -, -, -, events⟩ := cssControl_of_found (dial := dial) (r := r) found
    rw [ht]
    exact .inl ⟨valid, by simp [events, demagnetizeOthers_length]⟩

/-- Settles O48, by cases on the operation and, for `CSS`, on the state. -/
theorem driverEventsComeOnlyFromControlAndFaults : Obligations.DriverEventsComeOnlyFromControlAndFaults := by
  unfold Obligations.DriverEventsComeOnlyFromControlAndFaults
  intro i s t h sent
  rw [exec_eq] at h
  injection h with h
  subst h
  simp only [State.perform_regs, State.perform_events] at sent ⊢
  cases i with
  | rst | psi | psr | hce | piu => exact absurd rfl sent
  | css dir dial =>
    rw [operate] at sent ⊢
    cases hs : s.regs.cs.state with
    | init => rw [cssOp_init _ _ _ _ _ hs] at sent; exact absurd rfl sent
    | control =>
      rw [cssOp_control _ _ _ _ _ hs]
      exact .inl ⟨⟨dir, dial, rfl⟩, rfl, cssControl_events ..⟩
    | fault => rw [cssOp_fault _ _ _ _ _ hs] at sent; exact absurd rfl sent
  | flt code =>
    rw [operate] at sent ⊢
    by_cases hcode : code = .none
    · subst hcode; exact absurd rfl sent
    · rw [fltOp_of_ne hcode]
      exact .inr ⟨⟨code, rfl, hcode⟩, rfl⟩

end Sys2Proof.Machine
end

section
/-! The velocity PI controller (spec/43_velocity_pi.md R210 to R220): the update by its formulas, the bound on its two
registers, what any operation can leave in them, and the update over the reals. -/

namespace Sys2Proof.Machine

variable {α : Type}

/-! ## The stored integrator (R216) -/

section StoredInteg

variable {N : NumOps α} {c : Cfg α} {ic u out : α}

theorem piStoredInteg_of_unclamped (h : N.lt c.outMax u = false ∧ N.lt u c.outMin = false) :
    piStoredInteg N c ic u out = ic := by
  obtain ⟨notAbove, notBelow⟩ := h
  simp [piStoredInteg, notAbove, notBelow]

theorem piStoredInteg_of_clamped (h : N.lt c.outMax u = true ∨ N.lt u c.outMin = true) :
    piStoredInteg N c ic u out = clamp N (N.sub ic (N.mul c.kc (N.sub u out))) c.outMin c.outMax :=
  if_pos (Bool.or_eq_true_iff.mpr h)

/-- R216: everything the stored integrator can be. -/
theorem piStoredInteg_cases (N : NumOps α) (c : Cfg α) (ic u out : α) :
    piStoredInteg N c ic u out = ic ∨ ∃ x, piStoredInteg N c ic u out = clamp N x c.outMin c.outMax := by
  unfold piStoredInteg
  split
  · exact .inr ⟨_, rfl⟩
  · exact .inl rfl

end StoredInteg

/-- Settles O25: `PIU` performs the update on the sampled ports, and the two cases of the stored integrator are those of
its test. -/
theorem piuWritesThePiRegistersByTheFormulas : Obligations.PiuWritesThePiRegistersByTheFormulas := by
  unfold Obligations.PiuWritesThePiRegistersByTheFormulas
  intro s
  exact ⟨_, _, _, _, piUpdate Config.num Config.cfg s.wires.inRef s.wires.inMeas s.regs.pi.integ, exec_eq .piu s,
    rfl, rfl, rfl, rfl, rfl, piStoredInteg_of_unclamped, piStoredInteg_of_clamped⟩

/-! ## The bound (R218) -/

section Bounded

variable {N : NumOps α} {c : Cfg α}

/-- R218: the update's output is a clamped value, and its integrator is one in both cases of R216. -/
theorem piUpdate_withinLimits (hN : TotalOrder N) (hc : N.le c.outMin c.outMax = true) (ref meas integ : α) :
    WithinLimits N c (piUpdate N c ref meas integ).out ∧ WithinLimits N c (piUpdate N c ref meas integ).integ := by
  have clamped (x : α) : WithinLimits N c (clamp N x c.outMin c.outMax) := clamp_within hN hc x
  refine ⟨clamped _, ?_⟩
  rw [piUpdate]
  obtain unclamped | ⟨x, moved⟩ := piStoredInteg_cases N c (piClampedInteg N c (piError N ref meas) integ) _ _
  · rw [unclamped]
    exact clamped _
  · rw [moved]
    exact clamped x

/-- Settles O26. -/
theorem piUpdateStaysWithinTheLimits : Obligations.PiUpdateStaysWithinTheLimits := by
  unfold Obligations.PiUpdateStaysWithinTheLimits
  intro α N c ref meas integ hN hc
  exact piUpdate_withinLimits hN hc ref meas integ

/-- R172, R176: step (c) leaves the `pi` registers alone or makes one update. -/
theorem referenceStep_pi_cases (N : NumOps α) (c : Cfg α) (dial : Count) (p : Ports α) (r : Regs α) :
    (referenceStep N c dial p r).pi = r.pi ∨
    ∃ ref meas, (referenceStep N c dial p r).pi = piUpdate N c ref meas r.pi.integ := by
  cases hm : c.mode with
  | current => rw [referenceStep_current hm]; exact .inl rfl
  | speed =>
    rcases le_or_gt c.speedRate (r.cs.cnt.toNat + 1) with due | notDue
    · rw [referenceStep_tick hm _ _ _ _ due]; exact .inr ⟨_, _, rfl⟩
    · exact .inl (referenceStep_pi_of_noTick N c dial p notDue)

variable [Zero α]

/-- R24: everything an operation can do to the `pi` registers: nothing, the reset, or one update. -/
theorem operate_pi_cases (N : NumOps α) (c : Cfg α) (i : Instr) (p : Ports α) (r : Regs α) :
    (operate N c i p r).1.pi = r.pi ∨ (operate N c i p r).1.pi = PiRegs.reset ∨
    ∃ ref meas, (operate N c i p r).1.pi = piUpdate N c ref meas r.pi.integ := by
  cases i with
  | psi | psr | hce => exact .inl rfl
  | rst => exact .inr (.inl rfl)
  | piu => exact .inr (.inr ⟨p.inRef, p.inMeas, rfl⟩)
  | css dir dial =>
    rw [operate]
    cases hs : r.cs.state with
    | init => rw [cssOp_init _ _ _ _ _ hs]; exact .inr (.inl rfl)
    | control =>
      rw [cssOp_control _ _ _ _ _ hs, cssControl_pi]
      exact (referenceStep_pi_cases N c dial p r).imp_right .inr
    | fault => rw [cssOp_fault _ _ _ _ _ hs]; exact .inl rfl
  | flt code =>
    obtain ⟨state, fault, hf⟩ := fltOp_frame code p r
    exact .inl (by rw [operate, hf])

theorem piBounded_of_pi_eq_reset {r : Regs α} (h : r.pi = PiRegs.reset) : PiBounded N c r :=
  ⟨.inl (by rw [h, PiRegs.reset_integ]), .inl (by rw [h, PiRegs.reset_out])⟩

/-- R218 (4): the step lemma of the bound. -/
theorem operate_keeps_piBounded (hN : TotalOrder N) (hc : N.le c.outMin c.outMax = true) (i : Instr) (p : Ports α)
    {r : Regs α} (h : PiBounded N c r) : PiBounded N c (operate N c i p r).1 := by
  obtain kept | reset | ⟨ref, meas, updated⟩ := operate_pi_cases N c i p r
  · rwa [PiBounded, kept]
  · exact piBounded_of_pi_eq_reset reset
  · obtain ⟨out, integ⟩ := piUpdate_withinLimits hN hc ref meas r.pi.integ
    rw [PiBounded, updated]
    exact ⟨.inr integ, .inr out⟩

/-- R313: what every operation keeps, every sequence of operations keeps. -/
theorem operateAll_keeps {P : Regs α → Prop} (step : ∀ i p r, P r → P (operate N c i p r).1)
    (ops : List (Instr × Ports α)) {r : Regs α} (h : P r) : P (operateAll N c ops r).1 := by
  induction ops generalizing r with
  | nil => exact h
  | cons op ops ih =>
    obtain ⟨i, p⟩ := op
    exact ih (step i p r h)

end Bounded

/-- Settles O27: the reset registers are 0, and a run keeps what its operations keep. -/
theorem integratorStaysBoundedInEveryRun : Obligations.IntegratorStaysBoundedInEveryRun := by
  unfold Obligations.IntegratorStaysBoundedInEveryRun
  intro α _ N c hN hok
  obtain ⟨-, -, limits, -⟩ := hok
  have step (i : Instr) (p : Ports α) (r : Regs α) : PiBounded N c r → PiBounded N c (operate N c i p r).1 :=
    operate_keeps_piBounded hN limits i p
  exact ⟨piBounded_of_pi_eq_reset Regs.reset_pi, step, fun ops _ => operateAll_keeps step ops⟩

/-! ## The update over the reals (R211, R219, R220) -/

/-- R216: over the reals the two cases are one formula, since the excess of an unclamped sum is 0. -/
theorem piStoredInteg_real {c : Cfg ℝ} {ic : ℝ} (hc : c.outMin ≤ c.outMax) (lower : c.outMin ≤ ic)
    (upper : ic ≤ c.outMax) (u : ℝ) :
    piStoredInteg realNum c ic u (max c.outMin (min u c.outMax)) =
      max c.outMin (min (ic - c.kc * (u - max c.outMin (min u c.outMax))) c.outMax) := by
  by_cases h : realNum.lt c.outMax u = true ∨ realNum.lt u c.outMin = true
  · rw [piStoredInteg_of_clamped h, clamp_real hc]
    rfl
  · have unclamped : realNum.lt c.outMax u = false ∧ realNum.lt u c.outMin = false := by simpa using h
    obtain ⟨notAbove, notBelow⟩ : u ≤ c.outMax ∧ c.outMin ≤ u := by simpa [realNum] using unclamped
    rw [piStoredInteg_of_unclamped unclamped, min_eq_left notAbove, max_eq_right notBelow, sub_self, mul_zero, sub_zero,
      min_eq_left upper, max_eq_right lower]

/-- R211: the update over the reals, in terms of its clamped integrator `ic`. -/
theorem piUpdate_real {c : Cfg ℝ} {ref meas integ ic : ℝ} (hc : c.outMin ≤ c.outMax)
    (hic : max c.outMin (min (integ + c.ki * (ref - meas)) c.outMax) = ic) :
    (piUpdate realNum c ref meas integ).out = max c.outMin (min (c.kp * (ref - meas) + ic) c.outMax) ∧
    (piUpdate realNum c ref meas integ).integ =
      max c.outMin (min (ic - c.kc * (c.kp * (ref - meas) + ic -
        max c.outMin (min (c.kp * (ref - meas) + ic) c.outMax))) c.outMax) := by
  have lower : c.outMin ≤ ic := hic ▸ le_max_left _ _
  have upper : ic ≤ c.outMax := hic ▸ max_le hc (min_le_right _ _)
  have integrator : piClampedInteg realNum c (piError realNum ref meas) integ = ic := (clamp_real hc).trans hic
  have sum : piSum realNum c (piError realNum ref meas) ic = c.kp * (ref - meas) + ic := rfl
  simp only [piUpdate, integrator, sum, clamp_real hc, piStoredInteg_real hc lower upper, and_self]

/-- Settles O28: the clamped integrator is 0, so that the sum is the error. -/
theorem proportionalOutputIsTheClampedError : Obligations.ProportionalOutputIsTheClampedError := by
  unfold Obligations.ProportionalOutputIsTheClampedError
  intro c ref meas hki hkp hmin hmax
  have zero : max c.outMin (min 0 c.outMax) = 0 := by rw [min_eq_left hmax, max_eq_right hmin]
  obtain ⟨out, integ⟩ := piUpdate_real (ref := ref) (meas := meas) (integ := 0) (ic := 0) (hmin.trans hmax)
    (by rw [hki, zero_mul, add_zero, zero])
  constructor
  · rw [out, hkp, one_mul, add_zero]
  · intro hkc
    rw [integ, hkc, zero_mul, sub_zero, zero]

/-- R220: with the integrator at `OUT_MAX` and an error that is not negative, the output is `OUT_MAX`, and the integrator is
moved back from there by `KC` times the excess `KP × e`, but not below `OUT_MIN`. -/
theorem piUpdate_real_at_outMax {c : Cfg ℝ} {ref meas : ℝ} (hc : c.outMin ≤ c.outMax) (hki : 0 ≤ c.ki) (hkp : 0 ≤ c.kp)
    (hkc : 0 ≤ c.kc) (he : 0 ≤ ref - meas) :
    (piUpdate realNum c ref meas c.outMax).out = c.outMax ∧
    (piUpdate realNum c ref meas c.outMax).integ =
      max c.outMin (c.outMax - c.kc * (c.kp * (ref - meas))) := by
  have top : ∀ x, c.outMax ≤ x → max c.outMin (min x c.outMax) = c.outMax := fun x hx => by
    rw [min_eq_right hx, max_eq_right hc]
  have excess : 0 ≤ c.kp * (ref - meas) := mul_nonneg hkp he
  obtain ⟨out, integ⟩ := piUpdate_real (ref := ref) (meas := meas) hc
    (top _ (le_add_of_nonneg_right (mul_nonneg hki he)))
  rw [top _ (le_add_of_nonneg_left excess)] at out integ
  rw [add_sub_cancel_right, min_eq_left (sub_le_self _ (mul_nonneg hkc excess))] at integ
  exact ⟨out, integ⟩

/-- Settles O29: the integrator is the greater of `OUT_MIN` and `OUT_MAX − KC × (KP × e)`. -/
theorem antiWindupBoundAtTheUpperLimit : Obligations.AntiWindupBoundAtTheUpperLimit := by
  unfold Obligations.AntiWindupBoundAtTheUpperLimit
  intro c ref meas hc hki hkp hkc he
  obtain ⟨out, integ⟩ := piUpdate_real_at_outMax hc hki hkp hkc he.le
  have excess : 0 ≤ c.kp * (ref - meas) := mul_nonneg hkp he.le
  rw [integ]
  refine ⟨out, max_le hc (sub_le_self _ (mul_nonneg hkc excess)), fun hkc0 => ?_, fun hkc1 => ?_⟩
  · rw [hkc0, zero_mul, sub_zero, max_eq_right hc]
  · obtain ⟨atMin, -⟩ | ⟨moved, -⟩ := max_cases c.outMin (c.outMax - c.kc * (c.kp * (ref - meas)))
    · exact .inr atMin
    · exact .inl (moved.trans_le (sub_le_sub_left (le_mul_of_one_le_left excess hkc1) _))

end Sys2Proof.Machine
end

section
/-! The system operations RST and FLT (spec/44_system.md R241, R245, R246) and the machine's invariant: what each operation
does to the `cs` registers of a state that meets it, and the three shapes of an operation's event list. -/

namespace Sys2Proof.Machine

variable {α : Type}

/-! ## RST and FLT -/

theorem fltOp_none (p : Ports α) (r : Regs α) : fltOp .none p r = (r, []) := if_pos rfl

/-- Settles O14: `RST` performs the reinitialisation, which does not look at the registers before it. -/
theorem rstGivesEveryRegisterItsResetValue : Obligations.RstGivesEveryRegisterItsResetValue := by
  unfold Obligations.RstGivesEveryRegisterItsResetValue
  intro s
  exact ⟨_, exec_eq .rst s, rfl, rfl, rfl, rfl, rfl, rfl, rfl, rfl, rfl⟩

/-- Settles O44: with a code `FLT` is the fault entry, whatever the registers are. -/
theorem fltEntersFaultFromAnyState : Obligations.FltEntersFaultFromAnyState := by
  unfold Obligations.FltEntersFaultFromAnyState
  intro code s hcode
  rw [exec_eq, State.perform, operate, fltOp_of_ne hcode]
  rfl

/-- Settles O45. -/
theorem fltNoneDoesNothing : Obligations.FltNoneDoesNothing := by
  unfold Obligations.FltNoneDoesNothing
  intro s
  rw [exec_eq, State.perform, operate, fltOp_none]

/-! ## The invariant of the registers -/

section RegsInv

variable {c : Cfg α} {r : Regs α}

/-- R164, R182, R188: a selection that a CONTROL invocation reports is an entry of the direction's table. -/
theorem cssControl_selection_mem_table (N : NumOps α) (dir : Dir) (dial : Count) (p : Ports α)
    (h : (cssControl N c dir dial p r).1.cs.selValid = true) :
    ∃ e ∈ (c.table dir).toList, (cssControl N c dir dial p r).1.cs.active = e.phase ∧
      (cssControl N c dir dial p r).1.cs.boot = e.boot := by
  cases found : foundEntry N c dir p with
  | none => simp [found] at h
  | some e =>
    obtain ⟨t, ev, ht, -, active, boot, -⟩ := cssControl_of_found (dial := dial) (r := r) found
    rw [ht]
    exact ⟨e, mem_of_tableWalk found, active, boot⟩

variable [Zero α]

/-- Of the four register groups the invariant reads `cs` alone. -/
theorem regsInv_of_cs_eq {r' : Regs α} (hcs : r'.cs = r.cs) (h : RegsInv c r) : RegsInv c r' := by
  rwa [RegsInv, hcs]

/-- R162: the INIT arm leaves the reset `cs` registers but for CONTROL, where no code is latched either. -/
theorem regsInv_cssInit {N : NumOps α} (hok : c.ok N) (r : Regs α) : RegsInv c (cssInit r).1 := by
  obtain ⟨-, cnt_lt, -, current, selection⟩ := regsInv_reset hok
  exact ⟨by simp [cssInit], cnt_lt, nofun, current, selection⟩

/-- R164, R174, R176: the CONTROL arm leaves `cs.state` and `cs.fault` alone, step (c) the counter below `SPEED_RATE` and,
in current mode, the counter and the speed reference alone, and step (e) a table entry's selection. -/
theorem cssControl_keeps_regsInv {N : NumOps α} (hok : c.ok N) (dir : Dir) (dial : Count) (p : Ports α)
    (hs : r.cs.state = .control) (h : RegsInv c r) : RegsInv c (cssControl N c dir dial p r).1 := by
  obtain ⟨fault_iff, cnt_lt, -, current, -⟩ := h
  obtain ⟨-, -, -, -, rate_lt, -⟩ := hok
  refine ⟨?_, ?_, ?_, fun hm => ?_, fun valid => ⟨dir, cssControl_selection_mem_table N dir dial p valid⟩⟩
  · rwa [cssControl_state, cssControl_fault]
  · rw [cssControl_cnt]
    exact referenceStep_cnt_lt N dial p cnt_lt rate_lt
  · simp [hs]
  · rw [cssControl_cnt, cssControl_speedRef, referenceStep_current hm]
    exact current hm

/-- R245: taking a fault latches a code together with FAULT, and writes no other register. -/
theorem faultEntry_keeps_regsInv {code : FaultCode} (hcode : code ≠ .none) (h : RegsInv c r) :
    RegsInv c (faultEntry code r).1 := by
  obtain ⟨-, cnt_lt, -, current, selection⟩ := h
  exact ⟨iff_of_true rfl (faultEntry_fault_ne_none hcode r), cnt_lt, nofun, current, selection⟩

theorem cssOp_keeps_regsInv {N : NumOps α} (hok : c.ok N) (dir : Dir) (dial : Count) (p : Ports α) (h : RegsInv c r) :
    RegsInv c (cssOp N c dir dial p r).1 := by
  cases hs : r.cs.state with
  | init => rw [cssOp_init _ _ _ _ _ hs]; exact regsInv_cssInit hok r
  | control => rw [cssOp_control _ _ _ _ _ hs]; exact cssControl_keeps_regsInv hok dir dial p hs h
  | fault => rwa [cssOp_fault _ _ _ _ _ hs]

theorem fltOp_keeps_regsInv (code : FaultCode) (p : Ports α) (h : RegsInv c r) : RegsInv c (fltOp code p r).1 := by
  by_cases hcode : code = .none
  · rwa [hcode, fltOp_none]
  · rw [fltOp_of_ne hcode]
    exact faultEntry_keeps_regsInv hcode h

/-- The step lemma of the register invariant: only CSS, FLT and RST can change what it reads (R25). -/
theorem operate_keeps_regsInv {N : NumOps α} (hok : c.ok N) (i : Instr) (p : Ports α) (h : RegsInv c r) :
    RegsInv c (operate N c i p r).1 := by
  by_cases same : (operate N c i p r).1.cs = r.cs
  · exact regsInv_of_cs_eq same h
  · obtain ⟨dir, dial, rfl⟩ | ⟨code, rfl⟩ | rfl := operate_cs_changed same
    · exact cssOp_keeps_regsInv hok dir dial p h
    · exact fltOp_keeps_regsInv code p h
    · exact regsInv_reset hok

end RegsInv

/-! ## The shapes of an event list (R183, R189, R245) -/

/-- What the invariant says of the latest event list: none sent, every phase demagnetized, or an entry driven. -/
def EventShape (events : List Event) : Prop :=
  events = [] ∨ events = demagnetizeAll ∨
    ∃ active boot, ∃ sw : Switch,
      events = demagnetizeOthers active ++ [⟨active, driveCmd sw⟩, ⟨boot, .chargeBootstrapCapacitor⟩]

theorem State.inv_iff (s : State) : s.Inv ↔ RegsInv Config.cfg s.regs ∧ EventShape s.events := Iff.rfl

/-- R183, R189: the four Demagnetize events when no entry was found, else the five of the entry. -/
theorem cssControl_eventShape (N : NumOps α) (c : Cfg α) (dir : Dir) (dial : Count) (p : Ports α) (r : Regs α) :
    EventShape (cssControl N c dir dial p r).2 := by
  cases found : foundEntry N c dir p with
  | none =>
    obtain ⟨t, ev, ht, -, -, -, -, -, events⟩ := cssControl_of_notFound (dial := dial) (r := r) found
    rw [ht]
    exact .inr (.inl events)
  | some e =>
    obtain ⟨t, ev, ht, -, -, -, -, -, events⟩ := cssControl_of_found (dial := dial) (r := r) found
    rw [ht]
    exact .inr (.inr ⟨e.phase, e.boot, t.hc.out, events⟩)

theorem operate_eventShape [Zero α] (N : NumOps α) (c : Cfg α) (i : Instr) (p : Ports α) (r : Regs α) :
    EventShape (operate N c i p r).2 := by
  cases i with
  | rst | psi | psr | hce | piu => exact .inl rfl
  | css dir dial =>
    rw [operate]
    cases hs : r.cs.state with
    | init => rw [cssOp_init _ _ _ _ _ hs]; exact .inl rfl
    | control => rw [cssOp_control _ _ _ _ _ hs]; exact cssControl_eventShape N c dir dial p r
    | fault => rw [cssOp_fault _ _ _ _ _ hs]; exact .inl rfl
  | flt code =>
    rw [operate]
    by_cases hcode : code = .none
    · rw [hcode, fltOp_none]; exact .inl rfl
    · rw [fltOp_of_ne hcode]; exact .inr (.inl rfl)

/-! ## The machine -/

/-- The host's next move changes neither the registers nor the latest event list. -/
theorem State.inv_advanceHost {s : State} : s.advanceHost.Inv ↔ s.Inv := by
  rw [State.inv_iff, State.inv_iff, State.advanceHost_regs, State.advanceHost_events]

/-- Settles O56: a step is idle or performs one operation, which keeps the register invariant and sends an event list of a
shape the rules give; then the host moves. -/
theorem everyStepKeepsTheInvariant : Obligations.EveryStepKeepsTheInvariant := by
  unfold Obligations.EveryStepKeepsTheInvariant
  intro s t hinv h
  obtain ⟨regs, -⟩ := hinv
  obtain ⟨-, rfl⟩ | ⟨i, -, -, rfl⟩ := step_next_cases h
  · exact State.inv_advanceHost.mpr ⟨regs, .inl rfl⟩
  · exact State.inv_advanceHost.mpr ⟨operate_keeps_regsInv Config.cfg_ok i _ regs, operate_eventShape ..⟩

end Sys2Proof.Machine
end

section
/-! Exceptions (spec/60_exceptions.md R260, R262, R268, R269): no operation traps, the FaultMonitor's contract, a fault
taken within a control cycle, and FAULT in runs of any length. -/

namespace Sys2Proof.Machine

variable {α : Type}

/-- Settles O11: `exec` performs the instruction's operation, which keeps the wires and the host's moves; the type of
faults has no member that a step could answer. -/
theorem everyOperationCompletes : Obligations.EveryOperationCompletes := by
  unfold Obligations.EveryOperationCompletes
  exact ⟨fun i s => ⟨_, exec_eq i s, State.perform_wires _ _, State.perform_host _ _⟩, fun _ f => nomatch f⟩

/-! ## The FaultMonitor (R262) -/

section Monitor

variable {N : NumOps α} {limit current : α}

theorem monitorPhase_of_over (h : N.lt limit current = true) (code sofar : FaultCode) :
    monitorPhase N limit current code sofar = code := if_pos h

theorem monitorPhase_of_not_over (h : N.lt limit current = false) (code sofar : FaultCode) :
    monitorPhase N limit current code sofar = sofar := if_neg (Bool.eq_false_iff.mp h)

end Monitor

/-- Settles O54: from D back to A, a phase over its threshold decides, and one that is not leaves the code so far. -/
theorem monitorReportsTheLastPhaseOverItsThreshold : Obligations.MonitorReportsTheLastPhaseOverItsThreshold := by
  unfold Obligations.MonitorReportsTheLastPhaseOverItsThreshold
  intro α N t ia ib ic id
  unfold faultMonitor
  refine ⟨fun hd => ?_, fun hd hc => ?_, fun hd hc hb => ?_, fun hd hc hb ha => ?_, fun hd hc hb ha => ?_⟩
  · rw [monitorPhase_of_over hd]
  · rw [monitorPhase_of_not_over hd, monitorPhase_of_over hc]
  · rw [monitorPhase_of_not_over hd, monitorPhase_of_not_over hc, monitorPhase_of_over hb]
  · rw [monitorPhase_of_not_over hd, monitorPhase_of_not_over hc, monitorPhase_of_not_over hb, monitorPhase_of_over ha]
  · rw [monitorPhase_of_not_over hd, monitorPhase_of_not_over hc, monitorPhase_of_not_over hb,
      monitorPhase_of_not_over ha]

/-! ## A fault within a control cycle (R251, R268) -/

/-- Settles O51: `FLT` is the fault entry on the registers the `PSR` left, and `CSS` in FAULT does nothing. -/
theorem faultBetweenReadAndSelectSilencesTheCycle : Obligations.FaultBetweenReadAndSelectSilencesTheCycle := by
  unfold Obligations.FaultBetweenReadAndSelectSilencesTheCycle
  intro raw code dir dial s hcode
  have entered := fltEntersFaultFromAnyState code (s.perform (operate Config.num Config.cfg (.psr raw))) hcode
  have silent (u : State) (hu : u.regs.cs.state = .fault) := (cssInFaultDoesNothing u hu).1 dir dial
  exact ⟨_, _, _, exec_eq (.psr raw) s, entered, silent _ rfl, rfl, rfl, rfl, rfl, rfl⟩

/-! ## FAULT lasts until RST (R163, R247, R269) -/

/-- Settles O49: an idle step keeps the registers, and of all operations `RST` alone leaves FAULT. -/
theorem onlyRstLeavesFault : Obligations.OnlyRstLeavesFault := by
  unfold Obligations.OnlyRstLeavesFault
  intro s t hs h left
  obtain ⟨-, rfl⟩ | ⟨i, hv, hd, rfl⟩ := step_next_cases h
  · rw [State.advanceHost_regs, State.idle_regs] at left
    exact absurd hs left
  · rw [State.advanceHost_regs, State.perform_regs, operate_state, hs, ne_eq, nextState_fault, not_not] at left
    exact ⟨hv, left ▸ hd⟩

/-- R163, R247: with a code latched in FAULT, every operation but `RST` keeps the `cs` registers and sends nothing but
Demagnetize. -/
theorem operate_in_fault [Zero α] (N : NumOps α) (c : Cfg α) {i : Instr} (hi : i ≠ .rst) (p : Ports α) {r : Regs α}
    (hs : r.cs.state = .fault) (hf : r.cs.fault ≠ .none) :
    (operate N c i p r).1.cs = r.cs ∧ ∀ e ∈ (operate N c i p r).2, e.cmd = .demagnetize := by
  cases i with
  | rst => exact absurd rfl hi
  | psi | psr | hce | piu => exact ⟨rfl, List.forall_mem_nil _⟩
  | css dir dial =>
    rw [operate, cssOp_fault _ _ _ _ _ hs]
    exact ⟨rfl, List.forall_mem_nil _⟩
  | flt code =>
    rw [operate]
    by_cases hcode : code = .none
    · rw [hcode, fltOp_none]
      exact ⟨rfl, List.forall_mem_nil _⟩
    · rw [fltOp_of_ne hcode]
      have demagnetized : ∀ e ∈ demagnetizeAll, e.cmd = .demagnetize := by decide
      exact ⟨by rw [faultEntry_of_latched code hs hf], demagnetized⟩

theorem State.noReinit_iff {s : State} :
    s.noReinit = true ↔ ∀ w ∈ s.wires :: s.host, w.cmdValid = true → decode w.cmd ≠ .ok .rst := by
  simp only [State.noReinit, List.all_eq_true, Bool.not_eq_true', Bool.and_eq_false_iff, decide_eq_false_iff_not,
    imp_iff_not_or, Bool.not_eq_true, ne_eq]

/-- The host's next move is one of those it was to make, or presents nothing. -/
theorem State.noReinit_advanceHost {s : State} (h : s.noReinit = true) : s.advanceHost.noReinit = true := by
  rw [State.noReinit_iff] at h ⊢
  cases hh : s.host with
  | nil =>
    rw [State.advanceHost_of_nil hh]
    simp [hh]
  | cons w rest =>
    rw [State.advanceHost_of_cons hh]
    rw [hh] at h
    exact fun w' hw' => h w' (List.mem_cons_of_mem _ hw')

/-- R269: one step from FAULT with a code latched, with no `RST` presented now or later. -/
theorem step_in_fault {s t : State} (hs : s.regs.cs.state = .fault) (hf : s.regs.cs.fault ≠ .none)
    (hn : s.noReinit = true) (h : step s = .next t) :
    t.regs.cs = s.regs.cs ∧ t.noReinit = true ∧ ∀ e ∈ t.events, e.cmd = .demagnetize := by
  obtain ⟨-, rfl⟩ | ⟨i, hv, hd, rfl⟩ := step_next_cases h
  · rw [State.advanceHost_regs, State.advanceHost_events]
    exact ⟨rfl, State.noReinit_advanceHost hn, List.forall_mem_nil _⟩
  · have hi : i ≠ .rst := by
      rintro rfl
      exact State.noReinit_iff.mp hn s.wires List.mem_cons_self hv hd
    obtain ⟨kept, demagnetized⟩ := operate_in_fault Config.num Config.cfg hi _ hs hf
    rw [State.advanceHost_regs, State.advanceHost_events]
    exact ⟨kept, State.noReinit_advanceHost hn, demagnetized⟩

/-- Settles O50, by induction on the number of steps: each one keeps what the next one needs. -/
theorem faultLastsUntilReinitialisation : Obligations.FaultLastsUntilReinitialisation := by
  unfold Obligations.FaultLastsUntilReinitialisation
  intro k
  induction k with
  | zero =>
    intro s t hs hf hn h
    obtain ⟨u, first, done⟩ := run_succ_cases h
    obtain rfl : u = t := by injection done
    obtain ⟨kept, -, demagnetized⟩ := step_in_fault hs hf hn first
    exact ⟨kept, demagnetized⟩
  | succ k ih =>
    intro s t hs hf hn h
    obtain ⟨u, first, rest⟩ := run_succ_cases h
    obtain ⟨kept, later, -⟩ := step_in_fault hs hf hn first
    rw [← kept] at hs hf ⊢
    exact ih u t hs hf later rest

end Sys2Proof.Machine
end

section
/-! The legal host (spec/70_reset_and_hazards.md R312; spec/30_encoding.md R91, R92; spec/60_exceptions.md R260): while no
reserved word is presented, no step is refused. -/

namespace Sys2Proof.Machine

theorem Wires.legal_iff {α : Type} {w : Wires α} : w.legal = true ↔ (w.cmdValid = true → legalWord w.cmd = true) := by
  simp only [Wires.legal, Bool.or_eq_true, Bool.not_eq_true', imp_iff_not_or, Bool.not_eq_true]

theorem State.legalHost_iff {s : State} : s.legalHost = true ↔ ∀ w ∈ s.wires :: s.host, w.legal = true := by
  simp only [State.legalHost, Bool.and_eq_true, List.all_eq_true, List.forall_mem_cons]

theorem State.legalHost_congr {s t : State} (hw : t.wires = s.wires) (hh : t.host = s.host) :
    t.legalHost = s.legalHost := by
  rw [State.legalHost, State.legalHost, hw, hh]

/-- Log 6: the host's next move is one of those it was to make, or presents nothing. -/
theorem State.legalHost_advanceHost {s : State} (h : s.legalHost = true) : s.advanceHost.legalHost = true := by
  rw [State.legalHost_iff] at h ⊢
  cases hh : s.host with
  | nil =>
    rw [State.advanceHost_of_nil hh]
    simp [hh, Wires.legal_iff]
  | cons w rest =>
    rw [State.advanceHost_of_cons hh]
    rw [hh] at h
    exact fun w' hw' => h w' (List.mem_cons_of_mem _ hw')

/-- R91, R92, R260: the presented word, if there is one, decodes, and its operation completes and touches no wire. -/
theorem step_of_legalHost {s : State} (h : s.legalHost = true) : ∃ t, step s = .next t ∧ t.legalHost = true := by
  cases hv : s.wires.cmdValid with
  | false => exact ⟨_, step_of_idle hv, State.legalHost_advanceHost h⟩
  | true =>
    have legal : legalWord s.wires.cmd = true :=
      Wires.legal_iff.mp (State.legalHost_iff.mp h s.wires List.mem_cons_self) hv
    obtain ⟨i, hd⟩ := decode_ok_of_legalWord legal
    have kept := State.legalHost_congr (State.perform_wires s (operate Config.num Config.cfg i)) (State.perform_host s _)
    exact ⟨_, step_of_decode hv hd, State.legalHost_advanceHost (kept.trans h)⟩

/-- Settles O57, by induction on the number of steps: a legal host's step is not refused and leaves the host legal. -/
theorem legalHostIsNeverRefused : Obligations.LegalHostIsNeverRefused := by
  unfold Obligations.LegalHostIsNeverRefused
  intro s k
  induction k generalizing s with
  | zero => exact fun _ => ⟨s, rfl⟩
  | succ k ih =>
    intro h
    obtain ⟨u, first, later⟩ := step_of_legalHost h
    obtain ⟨t, rest⟩ := ih u later
    exact ⟨t, (run_succ_next first).trans rest⟩

end Sys2Proof.Machine
end
